-- ==== Sys2Proof/Word.lean ====
section
/-! DEFINITION. The word types of the simplevm CORE: 8-bit bytes and 16-bit words (00_scope.md R5, R13).

Every value of the machine is unsigned. Core `BitVec` addition and subtraction are the rule's
`+16` and `-16`: they wrap modulo 65536. The helpers that take words apart stand in Decode.lean. -/

namespace Sys2Proof

/-- A byte: 8 bits, 0 to 255 (R13). -/
abbrev Byte := BitVec 8

/-- A word: 16 bits, 0 to 65535; register values, addresses and instructions (R5, R13). -/
abbrev Word := BitVec 16

end Sys2Proof
end

