-- ==== Sys2Proof/Syntax.lean ====
section
/-! DEFINITION. The instructions of the simplevm CORE as terms: the eight register identifiers
(10_state.md R20, R21) and the six instructions (30_encoding.md R88, R92). -/

namespace Sys2Proof

/-- The closed set of eight register identifiers, in the order R21 lists them. Their slot numbers are
`regIndex` in Decode.lean. -/
inductive Reg
  | a | b | c | m | sp | pc | bp | flags
  deriving DecidableEq, Repr, Inhabited

/-- An instruction (R92's Op), one constructor for each row of spec/opcode_table.json. -/
inductive Instr
  /-- `Nop`, opcode 0 (R128). -/
  | nop
  /-- `Push v`, opcode 1 (R140). The operand is 16 bits wide as R92 gives it; an encoded Push carries its low
  8 bits only (R93), so a decoded one is in 0..255. -/
  | push (v : Word)
  /-- `PopRegister r`, opcode 2 (R142). -/
  | popRegister (r : Reg)
  /-- `AddStack`, opcode 3 (R145). -/
  | addStack
  /-- `AddRegister r1 r2`, opcode 4 (R150): r1 is the destination and first source. -/
  | addRegister (r1 r2 : Reg)
  /-- `Signal code`, opcode 5 (R160). -/
  | signal (code : Byte)
  deriving DecidableEq, Repr, Inhabited

end Sys2Proof
end

