-- ==== Sys2Proof/WellFormed.lean ====
section
/-! DEFINITION. Which instruction terms are well formed: the operands an encoding can carry without loss
(30_encoding.md R92, R93, R95). Register identifiers are in range by their type, and so is an 8-bit code. -/

namespace Sys2Proof

/-- The operands are in range for the encoding: a Push value is at most 0xFF (R95's "Push with `v <= 0xFF`,
and every other Op"). -/
def wellFormed : Instr → Bool
  | .nop => true
  | .push v => decide (v.toNat ≤ 0xFF)
  | .popRegister _ => true
  | .addStack => true
  | .addRegister _ _ => true
  | .signal _ => true

/-- `wellFormed` as a proposition. -/
abbrev WellFormed (i : Instr) : Prop := wellFormed i = true

end Sys2Proof
end

