-- ==== Sys2Proof/Decode.lean ====
section
/-! DEFINITION. The instruction decoder and the encoder (30_encoding.md R80 to R95), and the bit-field and
byte-order helpers both use. -/

namespace Sys2Proof

/-! Fields of a word. -/

/-- Bits 7:0 of a word: the opcode field of an instruction (R81), the byte at the lower address (R53). -/
def lowByte (w : Word) : Byte := w.extractLsb' 0 8

/-- Bits 15:8 of a word: the operand field of an instruction (R81), the byte at the higher address (R53). -/
def highByte (w : Word) : Byte := w.extractLsb' 8 8

/-- The word whose bits 7:0 are `lo` and whose bits 15:8 are `hi` (R53). -/
def joinBytes (lo hi : Byte) : Word := hi ++ lo

/-- `zext_16` of R13: an 8-bit value widened with zeros. -/
def zext16 (b : Byte) : Word := b.setWidth 16

/-- Bits 11:8, AddRegister's first register field (R85). -/
def field1 (w : Word) : Nat := (w.extractLsb' 8 4).toNat

/-- Bits 15:12, AddRegister's second register field (R85). -/
def field2 (w : Word) : Nat := (w.extractLsb' 12 4).toNat

/-! Register indices. -/

/-- The slot index of a register identifier, which is also its field value (R21, R86).
UNVERIFIED: the list order is the spec's decision D2; log entry 1. -/
def regIndex : Reg → Nat
  | .a => 0
  | .b => 1
  | .c => 2
  | .m => 3
  | .sp => 4
  | .pc => 5
  | .bp => 6
  | .flags => 7

/-- The register a field value names; none for 8 and above (R84, R85). -/
def regOfIndex : Nat → Option Reg
  | 0 => some .a
  | 1 => some .b
  | 2 => some .c
  | 3 => some .m
  | 4 => some .sp
  | 5 => some .pc
  | 6 => some .bp
  | 7 => some .flags
  | _ => none

/-! Decoding. -/

/-- The two kinds of decode error (R89). -/
inductive DecodeErrorKind
  /-- The opcode byte is 6 to 255. -/
  | unknownOpcode
  /-- A register field is outside 0 to 7. -/
  | badRegister
  deriving DecidableEq, Repr

/-- A decode error: its kind, the raw word and the offending value (R89). -/
structure DecodeError where
  kind : DecodeErrorKind
  word : Word
  value : Byte
  deriving DecidableEq, Repr

/-- R89's `Decode`, total on 16-bit words. Opcodes 0 and 3 ignore bits 15:8 (R82; UNVERIFIED: the spec's decision
D8, log entry 2). AddRegister checks r1 before r2 (UNVERIFIED: decision D9, log entry 3). -/
def decode (w : Word) : Except DecodeError Instr :=
  match (lowByte w).toNat with
  | 0 => .ok .nop
  | 1 => .ok (.push (zext16 (highByte w)))
  | 2 =>
    match regOfIndex (highByte w).toNat with
    | none => .error ⟨.badRegister, w, highByte w⟩
    | some r => .ok (.popRegister r)
  | 3 => .ok .addStack
  | 4 =>
    match regOfIndex (field1 w) with
    | none => .error ⟨.badRegister, w, BitVec.ofNat 8 (field1 w)⟩
    | some r1 =>
      match regOfIndex (field2 w) with
      | none => .error ⟨.badRegister, w, BitVec.ofNat 8 (field2 w)⟩
      | some r2 => .ok (.addRegister r1 r2)
  | 5 => .ok (.signal (highByte w))
  | _ => .error ⟨.unknownOpcode, w, lowByte w⟩

/-- The decoder on the two bytes of an instruction as memory holds them: the byte at the lower address first
(R80). -/
def decodeBytes (b0 b1 : Byte) : Except DecodeError Instr := decode (joinBytes b0 b1)

/-! Encoding. -/

/-- R94's `Encode`. Every operand is masked to its width before packing; Push drops bits 15:8 of its value (R93).
The high byte of Nop and AddStack is 0 (UNVERIFIED: the spec's decision D8, log entry 2). -/
def encode : Instr → Word
  | .nop => 0x0000#16
  | .push v => ((v &&& 0xFF#16) <<< 8) ||| 0x01#16
  | .popRegister r => ((BitVec.ofNat 16 (regIndex r) &&& 0xFF#16) <<< 8) ||| 0x02#16
  | .addStack => 0x0003#16
  | .addRegister r1 r2 =>
    ((BitVec.ofNat 16 (regIndex r2) &&& 0xF#16) <<< 12) |||
      ((BitVec.ofNat 16 (regIndex r1) &&& 0xF#16) <<< 8) ||| 0x04#16
  | .signal c => ((zext16 c &&& 0xFF#16) <<< 8) ||| 0x05#16

/-- The two bytes of an encoded instruction in increasing address order (R80, R104). -/
def encodeBytes (i : Instr) : List Byte := [lowByte (encode i), highByte (encode i)]

/-! The opcode map. -/

/-- A row of R88's opcode map: a word `w` belongs to it exactly when `w &&& mask = bits`. -/
structure OpcodeRow where
  mnemonic : String
  bits : Word
  mask : Word
  deriving DecidableEq, Repr

/-- R88's opcode map, in its order. -/
def opcodeRows : List OpcodeRow :=
  [⟨"Nop", 0x0000#16, 0x00FF#16⟩,
   ⟨"Push", 0x0001#16, 0x00FF#16⟩,
   ⟨"PopRegister", 0x0002#16, 0xF8FF#16⟩,
   ⟨"AddStack", 0x0003#16, 0x00FF#16⟩,
   ⟨"AddRegister", 0x0004#16, 0x88FF#16⟩,
   ⟨"Signal", 0x0005#16, 0x00FF#16⟩]

/-- The row of the opcode map an instruction belongs to (R88). -/
def rowOf : Instr → OpcodeRow
  | .nop => ⟨"Nop", 0x0000#16, 0x00FF#16⟩
  | .push _ => ⟨"Push", 0x0001#16, 0x00FF#16⟩
  | .popRegister _ => ⟨"PopRegister", 0x0002#16, 0xF8FF#16⟩
  | .addStack => ⟨"AddStack", 0x0003#16, 0x00FF#16⟩
  | .addRegister _ _ => ⟨"AddRegister", 0x0004#16, 0x88FF#16⟩
  | .signal _ => ⟨"Signal", 0x0005#16, 0x00FF#16⟩

/-! The opcode table's numbering. -/

/-- The word of a table row: bit 0 is the least significant bit of the word, and every bit from `nbits` on is 0. -/
def tableWord (nbits w : Nat) : Word := BitVec.ofNat 16 (w % 2 ^ nbits)

/-- What the decoder reads from a table word laid out as the hardware stores it, low byte at the lower address. -/
def decodeTableWord (nbits w : Nat) : Option Instr :=
  match decodeBytes (lowByte (tableWord nbits w)) (highByte (tableWord nbits w)) with
  | .ok i => some i
  | .error _ => none

end Sys2Proof
end

