-- ==== Sys2Proof/Config.lean ====
section
/-! DEFINITION. What is fixed for one machine and what the spec leaves free: the parameters of 00_scope.md R6, the
host's handlers as plain data (43_signal.md R161), and the free values, which are constants with no body. -/

namespace Sys2Proof

/-! The part of the machine a handler can reach (43_signal.md R161). -/

/-- The register file: eight 16-bit slots (10_state.md R20), one field each. -/
structure RegFile where
  a : Word
  b : Word
  c : Word
  m : Word
  sp : Word
  pc : Word
  bp : Word
  flags : Word
  deriving DecidableEq, Repr, Inhabited

/-- The identity of a host handler: what a handler-table entry holds (10_state.md R30, R32). -/
abbrev HandlerId := Nat

/-- The memory's listed bytes by rising address (20_memory.md R51; its form is `Machine.Memory.wf`). -/
abbrev Memory := List Host.Cell

/-- The signal-handler table's filled entries by rising code (10_state.md R30; its form is
`Machine.HandlerTable.wf`). A code that is not listed has an empty entry. -/
abbrev HandlerTable := List (Byte × HandlerId)

/-- `MEM_SIZE` with its legal range 1 to 65536 (R6). -/
structure MemSize where
  val : Nat
  pos : 1 ≤ val
  le : val ≤ 65536
  deriving DecidableEq, Repr

/-- What a free handler's behaviour may depend on: the state R161's relation covers (registers, memory, halt flag and
handler table), and R6's other two parameters, which a handler cannot change. DESIGN CHOICE: log entry 8. -/
structure HandlerView where
  regs : RegFile
  mem : Memory
  halt : Bool
  handlers : HandlerTable
  memSize : MemSize
  stackUnderflowCheck : Bool
  deriving DecidableEq, Repr

/-! Handlers. -/

/-- One thing a handler does to the machine (R163). Reads change nothing (R63), so only writes are listed; each
memory access obeys the bounds of R54 to R57 and R65, and a failed one ends nothing (R170). -/
inductive HostAct
  /-- Write a register. -/
  | setReg (r : Reg) (v : Word)
  /-- Copy a register into another: a register write whose value the handler reads. -/
  | copyReg (dst src : Reg)
  /-- `MemWrite(addr, 1, v)`, R55. -/
  | writeByte (addr : Word) (v : Byte)
  /-- `MemWrite(addr, 2, v)`, R57. -/
  | writeWord (addr v : Word)
  /-- `copy(src, dst, len)`, R65. -/
  | copy (src dst : Word) (len : Nat)
  /-- Write the halt flag (R29). -/
  | setHalt (on : Bool)
  /-- `DefineHandler(code, h)` from inside a handler (R162, R169). -/
  | define (code : Byte) (h : HandlerId)
  deriving DecidableEq, Repr

/-- How a handler ends. -/
inductive HandlerEnd
  /-- It returns (R163). -/
  | returns
  /-- It never returns (R168). -/
  | never
  /-- It calls `step()`, which the source leaves undefined (R166). -/
  | startsStep
  deriving DecidableEq, Repr, Inhabited

/-- What a handler does when it runs: its writes in order, then its end.
DESIGN CHOICE: a list of writes stands for R161's relation on one start state; log entry 8. -/
structure Behaviour where
  acts : List HostAct
  ending : HandlerEnd
  deriving DecidableEq, Repr, Inhabited

/-! Parameters. -/

/-- R6's parameters. No step changes them (10_state.md R33). -/
structure Params where
  /-- `MEM_SIZE`. -/
  memSize : MemSize
  /-- `STACK_UNDERFLOW_CHECK`. -/
  stackUnderflowCheck : Bool
  /-- `handlers`, the part of it given as data: handler `h` of the list does the `h`-th behaviour whenever it runs.
  A handler outside the list does what `Config.hostBehaviour` gives. -/
  handlerScripts : List Behaviour
  deriving DecidableEq, Repr

/-- The assembler's four errors (30_encoding.md R102). -/
inductive AsmErrorKind
  | unknownMnemonic
  | invalidLiteral
  | outOfRangeRegister
  | wrongArgCount
  deriving DecidableEq, Repr, Inhabited

namespace Config

/-- The parameter values of this hardware (R6): 8192 bytes, no underflow check. The host supplies the handlers, so no
script is fixed: every handler is free. -/
def hardware : Params where
  memSize := ⟨8192, by decide, by decide⟩
  stackUnderflowCheck := false
  handlerScripts := []

/-- FREE VALUE: what host handler `h` does when it runs on a state it sees as `v`, for the `n`-th draw. The draw makes
it a relation, as R161 allows. DESIGN CHOICE (log entry 8): all its writes are settled when it is dispatched, from `h`,
`n` and `v` alone, and so is what it does after an access of its own has failed (R170), since `v` holds MEM_SIZE and
with it which of its accesses fail. -/
opaque hostBehaviour (h : HandlerId) (n : Nat) (v : HandlerView) : Behaviour

/-- FREE VALUE: whether the low byte of a word write lands when only the high byte is out of bounds, for the `n`-th
draw (20_memory.md R57, decision D4). Nothing constrains it; log entry 6. -/
opaque lowByteLands (n : Nat) : Bool

/-- FREE VALUE: which of the four errors an unknown register name, or a number where only a name may stand, is reported
as (93_implementation_defined.md I9), when it is the `position`-th token (the mnemonic is the 0th) of a line whose
tokens are `line`. DESIGN CHOICE (log entry 17): the kind depends on these two alone. -/
opaque registerNameError (line : List (List Char)) (position : Nat) : AsmErrorKind

end Config

end Sys2Proof
end

