-- ==== Sys2Proof/Machine/State.lean ====
section
/-! DEFINITION. The state of the simplevm CORE (10_state.md), the reasons a step can stop, and the state after
construction (10_state.md R35). State is plain data. -/

namespace Sys2Proof.Machine

/-! Faults the spec's way: a record in the fault status. -/

/-- The seven fault causes (60_exceptions.md R180). -/
inductive Cause
  /-- Code 1: the word at PC is out of bounds (R121). -/
  | fetchFault
  /-- Code 2: the opcode byte is above 5 (R89). -/
  | unknownOpcode
  /-- Code 3: a register field is above 7 (R89). -/
  | badRegister
  /-- Code 4: a pop's word is out of bounds (R131). -/
  | memReadFault
  /-- Code 5: a push's word is out of bounds (R130). -/
  | memWriteFault
  /-- Code 6: a Signal whose table entry is empty (R165). -/
  | dispatchFault
  /-- Code 7: a pop with SP below 2, when the check is on (R131). -/
  | stackUnderflow
  deriving DecidableEq, Repr

/-- A fault record (60_exceptions.md R181). -/
structure FaultRecord where
  cause : Cause
  /-- The address of the instruction whose step faulted (UNVERIFIED: the spec's decision D10; log entry 4). -/
  pc : Word
  /-- The fetched word; none for a fetch fault. -/
  word : Option Word
  /-- The value R180's table names for the cause. -/
  info : Word
  deriving DecidableEq, Repr

/-- The state of the block. The first six fields are the spec's state (10_state.md R20, R29, R30, R32, R25, R31), `params`
holds the spec's parameters (R33), and `draws` is the model's own counter for free values. -/
structure State where
  /-- The register file (R20 to R28). -/
  regs : RegFile
  /-- The halt flag (R29). -/
  halt : Bool
  /-- The signal-handler table (R30). -/
  handlers : HandlerTable
  /-- The handler that is running: R32's hidden state. None between steps. -/
  running : Option HandlerId
  /-- The fault status: none, or the latched record (R25). -/
  fault : Option FaultRecord
  /-- The memory (R31). -/
  mem : Memory
  /-- The parameters of 00_scope.md R6, which no step changes (R33).
  DESIGN CHOICE: State carries them so that every claim is made for every value of them; log entry 5. -/
  params : Params
  /-- How many free values have been drawn. DESIGN CHOICE: the model's own field; log entry 7. -/
  draws : Nat
  deriving DecidableEq, Repr

/-- Why a step has no next state. A fault that the spec describes is not here: the step that meets it answers the next
state, with the record latched (log entry 9). -/
inductive Fault
  /-- Raised by `step` alone, when a step is requested of a faulted machine: no action, the same record again, no state
  change (R25, R127). Safe: the machine stops where the spec stops it. -/
  | latched (r : FaultRecord)
  /-- Raised by Signal when the handler never returns: the step has no outcome (R15 case 3, R168). A stuck state.
  Safe: nothing is claimed of a step that does not end. -/
  | handlerNeverReturns (code : Byte)
  deriving DecidableEq, Repr

/-- Why an instruction has no meaning. -/
inductive Refusal
  /-- Raised by an arm of `exec` that has no meaning yet. No arm of this model raises it. Safe. -/
  | notModelled (mnemonic : String)
  /-- Raised by Signal when the handler itself calls `step()`, and by `step` when it is requested while a handler is
  running: the source leaves the order undefined, and the spec has a model refuse it (43_signal.md R166, decision D22).
  Safe: true claims may become unprovable, none false is proved. -/
  | nestedStep (h : HandlerId)
  deriving DecidableEq, Repr

/-- Every register 0. -/
def RegFile.zero : RegFile := ⟨0, 0, 0, 0, 0, 0, 0, 0⟩

/-- Construction, the block's only reset (70_reset_and_hazards.md R200): every value of R35's table, for any parameters. -/
def State.construct (p : Params) : State where
  regs := RegFile.zero
  halt := false
  handlers := []
  running := none
  fault := none
  mem := []
  params := p
  draws := 0

/-- The machine right after reset (R35), with this hardware's parameters (R6). -/
def State.reset : State := State.construct Config.hardware

end Sys2Proof.Machine
end

