-- ==== Sys2Proof/Machine/Ops.lean ====
section
/-! DEFINITION. The named operations over registers, memory, the handler table and the fault status that every
instruction uses: 10_state.md, 20_memory.md, and taking a fault (60_exceptions.md R181, R184). -/

namespace Sys2Proof.Machine

/-! Registers (10_state.md R20 to R22): one home each, no aliasing, no hard-wired value. -/

/-- `x[r]` on a register file (R14). -/
def regGet (f : RegFile) : Reg → Word
  | .a => f.a
  | .b => f.b
  | .c => f.c
  | .m => f.m
  | .sp => f.sp
  | .pc => f.pc
  | .bp => f.bp
  | .flags => f.flags

/-- `x[r] <- v` on a register file (R14). -/
def regSet (f : RegFile) (r : Reg) (v : Word) : RegFile :=
  match r with
  | .a => { f with a := v }
  | .b => { f with b := v }
  | .c => { f with c := v }
  | .m => { f with m := v }
  | .sp => { f with sp := v }
  | .pc => { f with pc := v }
  | .bp => { f with bp := v }
  | .flags => { f with flags := v }

/-- `x[r]` (R14). -/
def State.reg (s : State) (r : Reg) : Word := regGet s.regs r

/-- `x[r] <- v` (R14): any write is permitted (R22). -/
def State.setReg (s : State) (r : Reg) (v : Word) : State := { s with regs := regSet s.regs r v }

/-! Plain updates of the other fields. -/

def State.setMem (s : State) (m : Memory) : State := { s with mem := m }

/-- Write the halt flag (R29). -/
def State.setHalt (s : State) (on : Bool) : State := { s with halt := on }

def State.setRunning (s : State) (h : Option HandlerId) : State := { s with running := h }

/-- One more free value has been drawn. -/
def State.advanceDraws (s : State) : State := { s with draws := s.draws + 1 }

/-! Memory as data (10_state.md R31, 20_memory.md R51). -/

/-- What an address reads as when nothing has written it: construction fills memory with zero (R31, R67). -/
def blankByte : Byte := 0

/-- The byte listed at an address, or the blank byte. -/
def memLookup : Memory → Nat → Byte
  | [], _ => blankByte
  | (k, b) :: rest, a => if k = a then b else memLookup rest a

/-- Put a byte at an address, keeping the canonical form. -/
def memStore : Memory → Nat → Byte → Memory
  | [], a, v => if v = blankByte then [] else [(a, v)]
  | (k, b) :: rest, a, v =>
    if a < k then (if v = blankByte then (k, b) :: rest else (a, v) :: (k, b) :: rest)
    else if a = k then (if v = blankByte then rest else (a, v) :: rest)
    else (k, b) :: memStore rest a v

/-- The canonical form: addresses strictly rising, and no listed byte equal to the blank byte. -/
def Memory.wf : Memory → Bool
  | [] => true
  | (k, b) :: rest => b != blankByte && (rest.all fun c => decide (k < c.1)) && Memory.wf rest

/-! The access primitives (20_memory.md R54 to R57). An address is a Nat, so that `a + 1` is exact. -/

/-- The answer of a memory write, with the state it leaves: OK or FAIL (R14). -/
inductive WriteResult
  | ok (s : State)
  | fail (s : State)
  deriving DecidableEq, Repr

/-- The state a memory write leaves, whatever it answers. -/
def WriteResult.state : WriteResult → State
  | .ok s => s
  | .fail s => s

/-- An address is valid exactly when it is below `MEM_SIZE` (R51). -/
def State.valid (s : State) (a : Nat) : Bool := decide (a < s.params.memSize.val)

/-- `MemRead(a, 1)`; none is FAIL (R54). -/
def State.readByte (s : State) (a : Nat) : Option Byte :=
  if s.valid a then some (memLookup s.mem a) else none

/-- `MemWrite(a, 1, v)` (R55). -/
def State.writeByte (s : State) (a : Nat) (v : Byte) : WriteResult :=
  if s.valid a then .ok (s.setMem (memStore s.mem a v)) else .fail s

/-- `MemRead(a, 2)`, little-endian; none is FAIL (R53, R56). A word at 0xFFFF always fails (UNVERIFIED: the spec's
decision D3; log entry 10). -/
def State.readWord (s : State) (a : Nat) : Option Word :=
  if s.valid a && s.valid (a + 1) then some (joinBytes (memLookup s.mem a) (memLookup s.mem (a + 1))) else none

/-- `MemWrite(a, 2, v)`, little-endian (R53, R57). When only the high half is out of bounds the write fails and its low
byte lands or not, a free value (decision D4; log entry 6). -/
def State.writeWord (s : State) (a : Nat) (v : Word) : WriteResult :=
  if s.valid a && s.valid (a + 1) then
    .ok (s.setMem (memStore (memStore s.mem a (lowByte v)) (a + 1) (highByte v)))
  else if s.valid a then
    .fail ((if Config.lowByteLands s.draws then s.setMem (memStore s.mem a (lowByte v)) else s).advanceDraws)
  else .fail s

/-- `copy(src, dst, len)`, byte by byte in ascending order, with no rollback (R65). UNVERIFIED: the order is the spec's
decision D19; log entry 11. -/
def State.copyBytes : Nat → Nat → Nat → State → WriteResult
  | _, _, 0, s => .ok s
  | src, dst, len + 1, s =>
    match s.readByte src with
    | none => .fail s
    | some b =>
      match s.writeByte dst b with
      | .fail t => .fail t
      | .ok t => State.copyBytes (src + 1) (dst + 1) len t

/-! The signal-handler table (10_state.md R30). -/

/-- The entry for a code: none is empty. -/
def tableLookup : HandlerTable → Byte → Option HandlerId
  | [], _ => none
  | (k, h) :: rest, c => if k = c then some h else tableLookup rest c

/-- Register or replace the entry for a code, keeping the canonical form (R162). -/
def tableDefine : HandlerTable → Byte → HandlerId → HandlerTable
  | [], c, h => [(c, h)]
  | (k, g) :: rest, c, h =>
    if c.toNat < k.toNat then (c, h) :: (k, g) :: rest
    else if c = k then (c, h) :: rest
    else (k, g) :: tableDefine rest c h

/-- The canonical form: codes strictly rising. -/
def HandlerTable.wf : HandlerTable → Bool
  | [] => true
  | (k, _) :: rest => (rest.all fun e => decide (k.toNat < e.1.toNat)) && HandlerTable.wf rest

/-- `handlers[code]` (R160). -/
def State.handlerAt (s : State) (code : Byte) : Option HandlerId := tableLookup s.handlers code

/-- `DefineHandler(code, h)` (R162). -/
def State.defineHandler (s : State) (code : Byte) (h : HandlerId) : State :=
  { s with handlers := tableDefine s.handlers code h }

/-- What a free handler's behaviour may depend on when it is dispatched: what R161's relation covers, and the parameters
MEM_SIZE and STACK_UNDERFLOW_CHECK. R170 leaves what a handler does after a FAIL to its own behaviour. DESIGN CHOICE
(log entry 8): that too is settled at dispatch, from this view. -/
def State.handlerView (s : State) : HandlerView :=
  ⟨s.regs, s.mem, s.halt, s.handlers, s.params.memSize, s.params.stackUnderflowCheck⟩

/-! Taking a fault (60_exceptions.md R181, R184): the record is latched, nothing else changes. -/

/-- Set the fault status (R25). -/
def State.latch (s : State) (r : FaultRecord) : State := { s with fault := some r }

/-- The record of a fault raised after the PC advance: `pc` is the address of the instruction, two below PC, and `word` is
the fetched word, which memory still holds there when the record is made (R181).
DEDUCED: no body writes PC or memory before its failing check; log entry 4. -/
def State.faultRecord (s : State) (cause : Cause) (info : Word) : FaultRecord :=
  ⟨cause, s.reg .pc - 2, s.readWord (s.reg .pc - 2).toNat, info⟩

/-- The code R180 gives a cause. UNVERIFIED: the numbers are the spec's decision D12; log entry 12. -/
def causeCode : Cause → Nat
  | .fetchFault => 1
  | .unknownOpcode => 2
  | .badRegister => 3
  | .memReadFault => 4
  | .memWriteFault => 5
  | .dispatchFault => 6
  | .stackUnderflow => 7

/-- `raise Fault(cause, info)` after the PC advance (R14, R184): latch the record and end the step. -/
def State.raise (s : State) (cause : Cause) (info : Word) : State := s.latch (s.faultRecord cause info)

/-! Fetch (40_engine.md R121 to R123). -/

/-- The fetch: a word read at PC (R121). -/
def State.fetch (s : State) : Option Word := s.readWord (s.reg .pc).toNat

/-- Taking a fetch fault: the record names PC and no word; PC is not advanced (R121, R181). -/
def State.raiseFetch (s : State) : State := s.latch ⟨.fetchFault, s.reg .pc, none, s.reg .pc⟩

/-- The PC advance after a successful fetch (R122). It wraps (UNVERIFIED: the spec's decision D5; log entry 10). -/
def State.advancePc (s : State) : State := s.setReg .pc (s.reg .pc + 2)

/-- The fault cause of a decode error (R123). -/
def decodeCause : DecodeErrorKind → Cause
  | .unknownOpcode => .unknownOpcode
  | .badRegister => .badRegister

/-- Taking a decode fault, with PC already advanced (R123). -/
def State.raiseDecode (s : State) (e : DecodeError) : State := s.raise (decodeCause e.kind) (zext16 e.value)

end Sys2Proof.Machine
end

