-- ==== Sys2Proof/Machine/Operands.lean ====
section
/-! DEFINITION. The operand forms: an explicit register is `State.reg`, an immediate is the decoded value, and the
implicit operands are the words on the stack, reached by `push` and `pop` (41_stack.md R130, R131). -/

namespace Sys2Proof.Machine

/-- The answer of a stack micro-operation: it is done with a value, or it has raised a fault and the step is over. -/
inductive StackResult (α : Type)
  | done (v : α) (s : State)
  | raised (s : State)
  deriving DecidableEq, Repr

/-- `push(v)` (R130): write a word at SP, then add 2 to SP. A failed write raises MEM_WRITE_FAULT naming SP (decision D13),
and SP is unchanged. The record is made before the write, so it holds the fetched word whatever the low byte does. -/
def push (v : Word) (s : State) : StackResult Unit :=
  match s.writeWord (s.reg .sp).toNat v with
  | .ok t => .done () (t.setReg .sp (s.reg .sp + 2))
  | .fail t => .raised (t.latch (s.faultRecord .memWriteFault (s.reg .sp)))

/-- The pop's own check: SP below 2 while STACK_UNDERFLOW_CHECK is on (R131, decision D7). -/
def underflows (s : State) : Bool := s.params.stackUnderflowCheck && decide ((s.reg .sp).toNat < 2)

/-- `pop()` (R131): read the word at SP -16 2, and on success subtract 2 from SP. -/
def pop (s : State) : StackResult Word :=
  if underflows s then
    .raised (s.raise .stackUnderflow (s.reg .sp))
  else
    match s.readWord (s.reg .sp - 2).toNat with
    | none => .raised (s.raise .memReadFault (s.reg .sp - 2))
    | some v => .done v (s.setReg .sp (s.reg .sp - 2))

end Sys2Proof.Machine
end

