-- ==== Sys2Proof/Machine/Flags.lean ====
section
/-! DEFINITION. The ALU (42_register.md R155). The ISA has no condition codes: no instruction computes, sets or tests a
flag, and the register named Flags is a plain register (10_state.md R27), so there is no flag computation to write. -/

namespace Sys2Proof.Machine

/-- The ALU's one operation, the 16-bit wrapping add of AddStack and AddRegister (R155). It gives no carry and no
overflow. -/
def aluAdd (x y : Word) : Word := x + y

end Sys2Proof.Machine
end

