-- ==== Sys2Proof/Machine/Engine.lean ====
section
/-! DEFINITION. The instruction with no effect of its own (40_engine.md). Every meaning runs on the state after the PC
advance (R122). -/

namespace Sys2Proof.Machine

/-- Nop (R128): no effect. -/
def execNop (s : State) : Host.Outcome State Fault Refusal := .next s

end Sys2Proof.Machine
end

