-- ==== Sys2Proof/Machine/Register.lean ====
section
/-! DEFINITION. The register instruction (42_register.md). -/

namespace Sys2Proof.Machine

/-- AddRegister (R150): both sources are read before the destination is written. -/
def execAddRegister (r1 r2 : Reg) (s : State) : Host.Outcome State Fault Refusal :=
  .next (s.setReg r1 (aluAdd (s.reg r1) (s.reg r2)))

end Sys2Proof.Machine
end

