-- ==== Sys2Proof/Machine/Signal.lean ====
section
/-! DEFINITION. Signal and the trap dispatch (43_signal.md). -/

namespace Sys2Proof.Machine

/-- One write of a handler (R163). A memory access that fails leaves what R55, R57 and R65 say and the handler goes on
(R170). -/
def runAct (act : HostAct) (s : State) : State :=
  match act with
  | .setReg r v => s.setReg r v
  | .copyReg dst src => s.setReg dst (s.reg src)
  | .writeByte a v => (s.writeByte a.toNat v).state
  | .writeWord a v => (s.writeWord a.toNat v).state
  | .copy src dst len => (State.copyBytes src.toNat dst.toNat len s).state
  | .setHalt on => s.setHalt on
  | .define code h => s.defineHandler code h

/-- A handler's writes, in order (R67). -/
def runActs : List HostAct → State → State
  | [], s => s
  | act :: rest, s => runActs rest (runAct act s)

/-- What handler `h` does when it starts on `s`: its script where the host gave one, and a free value otherwise (R161).
DESIGN CHOICE: either way its writes are settled at dispatch; log entry 8. -/
def handlerBehaviour (h : HandlerId) (s : State) : Behaviour :=
  match s.params.handlerScripts[h]? with
  | some b => b
  | none => Config.hostBehaviour h s.draws s.handlerView

/-- Trap entry: the machine is handed over as it stands, and nothing is pushed or saved (R163, R164). The running handler is
noted (R32), and a draw is used up where the behaviour was a free value. -/
def enterTrap (h : HandlerId) (s : State) : State :=
  match s.params.handlerScripts[h]? with
  | some _ => s.setRunning (some h)
  | none => (s.setRunning (some h)).advanceDraws

/-- Trap return: nothing is restored (R164); no handler is running any more. -/
def leaveTrap (s : State) : State := s.setRunning none

/-- `Trap(code, h)` (R163): handler `h`, chosen at dispatch, runs to its end whatever it does to the table (R32, R169). If
it never returns the step has no outcome (R168). If it starts a step the model refuses the run (R166). -/
def trap (code : Byte) (h : HandlerId) (s : State) : Host.Outcome State Fault Refusal :=
  match (handlerBehaviour h s).ending with
  | .returns => .next (leaveTrap (runActs (handlerBehaviour h s).acts (enterTrap h s)))
  | .never => .fault (.handlerNeverReturns code)
  | .startsStep => .refused (.nestedStep h)

/-- Signal (R160): look the code up and run the handler, or take the dispatch fault (R165). -/
def execSignal (code : Byte) (s : State) : Host.Outcome State Fault Refusal :=
  match s.handlerAt code with
  | none => .next (s.raise .dispatchFault (zext16 code))
  | some h => trap code h s

end Sys2Proof.Machine
end

