-- ==== Sys2Proof/Machine/Stack.lean ====
section
/-! DEFINITION. The stack instructions (41_stack.md). A fault ends the body and leaves what was done before it (R146,
R184): the answer is the next state, with the record latched. -/

namespace Sys2Proof.Machine

/-- Push (R140). -/
def execPush (v : Word) (s : State) : Host.Outcome State Fault Refusal :=
  match push v s with
  | .raised t => .next t
  | .done _ t => .next t

/-- PopRegister (R142): the register is written after the pop's own SP update. -/
def execPopRegister (r : Reg) (s : State) : Host.Outcome State Fault Refusal :=
  match pop s with
  | .raised t => .next t
  | .done v t => .next (t.setReg r v)

/-- AddStack (R145): pop the top word, pop the word below it, push their sum. -/
def execAddStack (s : State) : Host.Outcome State Fault Refusal :=
  match pop s with
  | .raised t => .next t
  | .done a1 s1 =>
    match pop s1 with
    | .raised t => .next t
    | .done b1 s2 =>
      match push (aluAdd a1 b1) s2 with
      | .raised t => .next t
      | .done _ t => .next t

end Sys2Proof.Machine
end

