-- ==== Sys2Proof/Machine/Dispatch.lean ====
section
/-! DEFINITION. Dispatch by decoded variant (40_engine.md R124): one arm per instruction. -/

namespace Sys2Proof.Machine

def exec (i : Instr) (s : State) : Host.Outcome State Fault Refusal :=
  match i with
  | .nop => Sys2Proof.Machine.execNop s
  | .push v => Sys2Proof.Machine.execPush v s
  | .popRegister r => Sys2Proof.Machine.execPopRegister r s
  | .addStack => Sys2Proof.Machine.execAddStack s
  | .addRegister r1 r2 => Sys2Proof.Machine.execAddRegister r1 r2 s
  | .signal code => Sys2Proof.Machine.execSignal code s

end Sys2Proof.Machine
end

