-- ==== Sys2Proof/Machine/Step.lean ====
section
/-! DEFINITION. The step cycle (40_engine.md R120) and where the next instruction is fetched from. -/

namespace Sys2Proof.Machine

/-- One `Step()` (R120). A faulted machine performs no action and returns the latched record again (R127). A step while a
handler is running is refused (R166). Otherwise fetch, advance PC, decode, and run the one body. The halt flag is not
looked at (R127). A fault met on the way is latched in the next state (R184; log entry 9). -/
def step (s : State) : Host.Outcome State Fault Refusal :=
  match s.fault with
  | some r => .fault (.latched r)
  | none =>
    match s.running with
    | some h => .refused (.nestedStep h)
    | none =>
      match s.fetch with
      | none => .next s.raiseFetch
      | some w =>
        match decode w with
        | .error e => .next (s.advancePc.raiseDecode e)
        | .ok i => exec i s.advancePc

/-- `s` with the instruction of a table word stored at PC, low byte first, where the next step fetches it. Nothing else
changes. Both bytes must exist for the step to fetch them; where they do not, the write fails and the fetch will too. -/
def State.withFetchWord (s : State) (nbits w : Nat) : State :=
  let a := (s.reg .pc).toNat
  ((s.writeByte a (lowByte (tableWord nbits w))).state.writeByte (a + 1) (highByte (tableWord nbits w))).state

end Sys2Proof.Machine
end

