-- ==== Sys2Proof/Machine/Assembler.lean ====
section
/-! DEFINITION. The assembler's text form (30_encoding.md R96 to R104): text to instructions and to bytes. Text is a list
of characters. It is the toolchain's, and no step uses it (60_exceptions.md R197). Where the source is silent the rules
follow the spec's decision D21 (UNVERIFIED; log entry 16). -/

namespace Sys2Proof.Machine

/-- An assembler error: its kind and the mnemonic or argument it names (R102). -/
structure AsmError where
  kind : AsmErrorKind
  token : List Char
  deriving DecidableEq, Repr

/-! Tokens (R96). -/

/-- ASCII whitespace: space, and tab, line feed, vertical tab, form feed, carriage return (R96; log entry 16). -/
def isSpace (c : Char) : Bool := c.toNat == 32 || (9 ≤ c.toNat && c.toNat ≤ 13)

/-- The tokens of a line, with `cur` the token being read, in reverse. -/
def tokensFrom : List Char → List Char → List (List Char)
  | [], cur => if cur.isEmpty then [] else [cur.reverse]
  | c :: rest, cur =>
    if isSpace c then (if cur.isEmpty then tokensFrom rest [] else cur.reverse :: tokensFrom rest [])
    else tokensFrom rest (c :: cur)

/-- A line split on whitespace, empty tokens discarded (R96). -/
def tokens (line : List Char) : List (List Char) := tokensFrom line []

/-! Numeric literals (R99). -/

/-- The value of a digit in a base up to 16, both letter cases. -/
def digitValue (base : Nat) (c : Char) : Option Nat :=
  let n := c.toNat
  let v := if 48 ≤ n && n ≤ 57 then some (n - 48)
    else if 97 ≤ n && n ≤ 102 then some (n - 87)
    else if 65 ≤ n && n ≤ 70 then some (n - 55)
    else none
  match v with
  | some d => if d < base then some d else none
  | none => none

/-- The number a row of digits stands for, continuing from `acc`; none at the first character that is no digit. -/
def digitsValue (base : Nat) : List Char → Nat → Option Nat
  | [], acc => some acc
  | c :: rest, acc =>
    match digitValue base c with
    | none => none
    | some d => digitsValue base rest (acc * base + d)

/-- The digits after the optional sign of the base: an empty literal is an error. -/
def digitsOf (base : Nat) (ds : List Char) : Option Nat := if ds.isEmpty then none else digitsValue base ds 0

/-- A numeric literal: `$` base 16, `%` base 2, otherwise base 10 (R99). -/
def numericLiteral : List Char → Option Nat
  | '$' :: ds => digitsOf 16 ds
  | '%' :: ds => digitsOf 2 ds
  | ds => digitsOf 10 ds

/-- Whether a token is written as a number rather than a name: it begins with `$`, `%`, a decimal digit, or a sign
(a sign makes it an invalid literal, 93_implementation_defined.md I9). DESIGN CHOICE: log entry 17. -/
def looksNumeric : List Char → Bool
  | [] => false
  | c :: _ => c == '$' || c == '%' || c == '+' || c == '-' || (48 ≤ c.toNat && c.toNat ≤ 57)

/-! Arguments. -/

/-- The register a name spells exactly (R101). -/
def registerNamed (t : List Char) : Option Reg :=
  if t = ['A'] then some .a
  else if t = ['B'] then some .b
  else if t = ['C'] then some .c
  else if t = ['M'] then some .m
  else if t = ['S', 'P'] then some .sp
  else if t = ['P', 'C'] then some .pc
  else if t = ['B', 'P'] then some .bp
  else if t = ['F', 'l', 'a', 'g', 's'] then some .flags
  else none

/-- A numeric argument that must be at most `limit` (R100). -/
def numericArg (limit : Nat) (t : List Char) : Except AsmError Nat :=
  match numericLiteral t with
  | some n => if n ≤ limit then .ok n else .error ⟨.invalidLiteral, t⟩
  | none => .error ⟨.invalidLiteral, t⟩

/-- PopRegister's argument, the `k`-th token `t` of `line`: a name, or an index in a form of R99 that must be 0 to 7
(R100, R101). The kind of the error of an unknown name is free (I9; log entry 17). -/
def registerArg (line : List (List Char)) (k : Nat) (t : List Char) : Except AsmError Reg :=
  match registerNamed t with
  | some r => .ok r
  | none =>
    if looksNumeric t then
      match numericLiteral t with
      | some n =>
        match regOfIndex n with
        | some r => .ok r
        | none => .error ⟨.outOfRangeRegister, t⟩
      | none => .error ⟨.invalidLiteral, t⟩
    else .error ⟨Config.registerNameError line k, t⟩

/-- AddRegister's argument, the `k`-th token `t` of `line`: a name only (R101). The kind of its error is free (I9; log
entry 17). -/
def registerNameArg (line : List (List Char)) (k : Nat) (t : List Char) : Except AsmError Reg :=
  match registerNamed t with
  | some r => .ok r
  | none => .error ⟨Config.registerNameError line k, t⟩

/-! Lines. -/

/-- The five mnemonics (R97). Nop has none (R98). -/
inductive Mnemonic
  | push
  | popRegister
  | addStack
  | addRegister
  | signal
  deriving DecidableEq, Repr

/-- The mnemonic a token spells exactly, case included (R97). -/
def mnemonicNamed (t : List Char) : Option Mnemonic :=
  if t = "Push".toList then some .push
  else if t = "PopRegister".toList then some .popRegister
  else if t = "AddStack".toList then some .addStack
  else if t = "AddRegister".toList then some .addRegister
  else if t = "Signal".toList then some .signal
  else none

/-- The instruction a mnemonic and its arguments give (R97): the argument count first, then the arguments from left to
right. DESIGN CHOICE: which of two errors in a line is reported; log entry 17. DESIGN CHOICE: a wrong argument count
names the mnemonic, never an argument, where R102 allows either; log entry 22. -/
def assembleArgs (name : List Char) : Mnemonic → List (List Char) → Except AsmError Instr
  | .push, [t] =>
    match numericArg 65535 t with
    | .ok n => .ok (.push (BitVec.ofNat 16 n))
    | .error e => .error e
  | .popRegister, [t] =>
    match registerArg [name, t] 1 t with
    | .ok r => .ok (.popRegister r)
    | .error e => .error e
  | .addStack, [] => .ok .addStack
  | .addRegister, [t1, t2] =>
    match registerNameArg [name, t1, t2] 1 t1 with
    | .error e => .error e
    | .ok r1 =>
      match registerNameArg [name, t1, t2] 2 t2 with
      | .error e => .error e
      | .ok r2 => .ok (.addRegister r1 r2)
  | .signal, [t] =>
    match numericArg 255 t with
    | .ok n => .ok (.signal (BitVec.ofNat 8 n))
    | .error e => .error e
  | _, _ => .error ⟨.wrongArgCount, name⟩

/-- The instruction of a line's tokens; an empty row of tokens is skipped (R103). -/
def assembleTokens : List (List Char) → Except AsmError (Option Instr)
  | [] => .ok none
  | name :: args =>
    match mnemonicNamed name with
    | none => .error ⟨.unknownMnemonic, name⟩
    | some m =>
      match assembleArgs name m args with
      | .ok i => .ok (some i)
      | .error e => .error e

/-- Whether a line is a comment: its first character is `;` (R103). -/
def isComment : List Char → Bool
  | c :: _ => c == ';'
  | [] => false

/-- One line: none for a comment or an empty line, otherwise exactly one instruction (R103). -/
def assembleLine (line : List Char) : Except AsmError (Option Instr) :=
  if isComment line then .ok none else assembleTokens (tokens line)

/-! Programs. -/

/-- The instructions of a list of lines, in order (R104). DESIGN CHOICE: the first line that fails ends the assembly, and
the other lines yield nothing, where the spec says only that such a line fails and yields no word; log entry 23. -/
def assembleLines : List (List Char) → Except AsmError (List Instr)
  | [] => .ok []
  | line :: rest =>
    match assembleLine line with
    | .error e => .error e
    | .ok found =>
      match assembleLines rest with
      | .error e => .error e
      | .ok is =>
        match found with
        | none => .ok is
        | some i => .ok (i :: is)

/-- The bytes of a list of instructions: each its 2-byte little-endian word (R104). -/
def programBytes : List Instr → List Byte
  | [] => []
  | i :: rest => encodeBytes i ++ programBytes rest

/-- Assembled output (R104). -/
def assemble (lines : List (List Char)) : Except AsmError (List Byte) :=
  match assembleLines lines with
  | .error e => .error e
  | .ok is => .ok (programBytes is)

/-- A text cut into lines at each line feed, with `cur` the line being read, in reverse. -/
def linesFrom : List Char → List Char → List (List Char)
  | [], cur => [cur.reverse]
  | c :: rest, cur => if c == '\n' then cur.reverse :: linesFrom rest [] else linesFrom rest (c :: cur)

/-- A whole source text, one instruction per line (R103). -/
def assembleText (text : List Char) : Except AsmError (List Byte) := assemble (linesFrom text [])

end Sys2Proof.Machine
end

