-- ==== Sys2Proof/Machine/HostPort.lean ====
section
/-! DEFINITION. The host's side of the block's interface (00_scope.md R9, R11): the answer of a Step, register
inspection, the program load, boot, and the driving loop (70_reset_and_hazards.md R202). `DefineHandler` is
`State.defineHandler`, and the host's `copy` is `State.copyBytes`. -/

namespace Sys2Proof.Machine

/-- What a `Step()` returns to the host (R9, R15). -/
inductive Response
  | ok
  | fault (r : FaultRecord)
  deriving DecidableEq, Repr

/-- The return of a step that left state `t`, read from the fault status: a step that could run started with none, so a
record there is the one this step latched (R25, R126, R184). -/
def response (t : State) : Response :=
  match t.fault with
  | none => .ok
  | some r => .fault r

/-- One `Step()` transaction as the host sees it: what it returns and the state it leaves (R15). None where it has no
outcome (the handler does not return) or the run is refused. -/
def stepResponse (s : State) : Option (Response × State) :=
  match step s with
  | .next t => some (response t, t)
  | .fault (.latched r) => some (.fault r, s)
  | .fault (.handlerNeverReturns _) => none
  | .refused _ => none

/-- `GetRegister(r)` (10_state.md R34): a pure read. -/
def getRegister (s : State) (r : Reg) : Word := s.reg r

/-- Program load (20_memory.md R66): the bytes in order from address `a` upward, stopping at the first that fails, which
is the host's load error. -/
def loadProgram : List Byte → Nat → State → WriteResult
  | [], _, s => .ok s
  | b :: rest, a, s =>
    match s.writeByte a b with
    | .fail t => .fail t
    | .ok t => loadProgram rest (a + 1) t

/-- Register the host's handlers in order (R202, step 2). -/
def defineHandlers : List (Byte × HandlerId) → State → State
  | [], s => s
  | (code, h) :: rest, s => defineHandlers rest (s.defineHandler code h)

/-- R202, steps 1 to 3: construct, define handlers, load the program from address 0. -/
def boot (p : Params) (defs : List (Byte × HandlerId)) (program : List Byte) : WriteResult :=
  loadProgram program 0 (defineHandlers defs (State.construct p))

/-- How a run of the driving loop stands (40_engine.md R129). -/
inductive RunEnd
  /-- A step returned Ok and the halt flag is then set. -/
  | halted (s : State)
  /-- A step returned Fault. -/
  | faulted (r : FaultRecord) (s : State)
  /-- A handler never returned. -/
  | noEnd (code : Byte)
  /-- A handler started a step. -/
  | refused (r : Refusal)
  /-- The loop would request another step. -/
  | going (s : State)
  deriving DecidableEq, Repr

/-- The driving loop (R11, R202 step 4) for at most `n` steps: stop at a fault, or when the halt flag is set after a
step. -/
def drive : Nat → State → RunEnd
  | 0, s => .going s
  | n + 1, s =>
    match step s with
    | .next t =>
      match t.fault with
      | some r => .faulted r t
      | none => if t.halt then .halted t else drive n t
    | .fault (.latched r) => .faulted r s
    | .fault (.handlerNeverReturns code) => .noEnd code
    | .refused r => .refused r

end Sys2Proof.Machine
end

