-- ==== Sys2Proof/Safety.lean ====
section
/-! DEFINITION. What counts as a good state and a safe step, in the terms the claims use. -/

namespace Sys2Proof.Machine

/-- The invariant every step keeps: memory and the handler table are in canonical form, no byte lies outside the backing
store (20_memory.md R51, R59), and no handler is running between steps (10_state.md R32). -/
structure Inv (s : State) : Prop where
  memCanonical : Memory.wf s.mem = true
  memInside : ∀ c ∈ s.mem, c.1 < s.params.memSize.val
  tableCanonical : HandlerTable.wf s.handlers = true
  noneRunning : s.running = none

/-- The engine is running (00_scope.md R10): not faulted, and between steps. A halted engine steps like a running one
(40_engine.md R127). -/
structure Ready (s : State) : Prop where
  notFaulted : s.fault = none
  noneRunning : s.running = none

/-- The step from `s` returned Ok and left `t` (40_engine.md R126). -/
def StepOk (s t : State) : Prop := step s = .next t ∧ t.fault = none

/-- The step from `s` faulted with record `r` and left `t` (60_exceptions.md R184). -/
def StepFaults (s : State) (r : FaultRecord) (t : State) : Prop := step s = .next t ∧ t.fault = some r

/-! Terms for frames. -/

/-- Every byte reads as before, in and out of bounds. -/
def SameBytes (s t : State) : Prop := ∀ a, t.readByte a = s.readByte a

/-- Everything but registers, memory, fault status and draws is as before. -/
structure SameHostSide (s t : State) : Prop where
  halt : t.halt = s.halt
  handlers : t.handlers = s.handlers
  running : t.running = s.running
  params : t.params = s.params

/-- Everything but registers and memory is as before: no fault, no draw, nothing on the host's side. -/
structure SameControl (s t : State) : Prop extends SameHostSide s t where
  fault : t.fault = s.fault
  draws : t.draws = s.draws

/-- Whether running the instruction hands the machine to a handler (43_signal.md R160). -/
def runsHandler (i : Instr) (s : State) : Bool :=
  match i with
  | .nop => false
  | .push _ => false
  | .popRegister _ => false
  | .addStack => false
  | .addRegister _ _ => false
  | .signal code => (s.handlerAt code).isSome

/-- The slots an instruction's body writes by 10_state.md R23's table; a handler may write any. -/
def writtenSlots : Instr → List Reg
  | .nop => []
  | .push _ => [.sp]
  | .popRegister r => [.sp, r]
  | .addStack => [.sp]
  | .addRegister r1 _ => [r1]
  | .signal _ => []

/-- The slots an instruction's body reads by 10_state.md R23's table; a handler may read any. -/
def readSlots : Instr → List Reg
  | .nop => []
  | .push _ => [.sp]
  | .popRegister _ => [.sp]
  | .addStack => [.sp]
  | .addRegister r1 r2 => [r1, r2]
  | .signal _ => []

/-- The instruction the next step runs, where it fetches and decodes one. -/
def nextInstr (s : State) : Option Instr :=
  match s.fetch with
  | none => none
  | some w =>
    match decode w with
    | .ok i => some i
    | .error _ => none

/-- An outcome with its next state changed by `f`. -/
def mapNext (f : State → State) : Host.Outcome State Fault Refusal → Host.Outcome State Fault Refusal
  | .next t => .next (f t)
  | .fault r => .fault r
  | .refused r => .refused r

end Sys2Proof.Machine
end

