-- ==== Sys2Proof/Certificates/Slice0/Obligations.lean ====
section
/-! DEFINITION. The statements for the provers. Each docstring names the rule of spec/ it formalises. A statement whose rule
rests on a decision of the spec's own (92_eei_decisions.md) says so. -/

open Sys2Proof Sys2Proof.Machine

/-! ### Reset -/

/-- 10_state.md section 6: every register 0, every memory byte 0 inside 8192 bytes and none outside, every handler entry empty,
halt false. That the fault status is none is the spec's decision D11; that no handler is running is the model's (log entry 13). -/
def Obligations.ResetHoldsConstructionValues : Prop :=
  (∀ r, State.reset.reg r = 0) ∧
  (∀ a, State.reset.readByte a = if a < 8192 then some 0 else none) ∧
  (∀ code, State.reset.handlerAt code = none) ∧
  State.reset.halt = false ∧ State.reset.fault = none ∧ State.reset.running = none

/-- The invariant of Safety.lean holds after construction: 10_state.md section 6 and 20_memory.md section 1 for memory and the
handler table, 10_state.md section 4 for the running handler. That it is none at reset is the model's DESIGN CHOICE (log entry 13). -/
def Obligations.ResetMeetsInvariant : Prop := Inv State.reset

/-! ### The step cycle -/

/-- 40_engine.md section 1: when the two bytes at PC decode to an instruction, the step is that instruction's meaning on the
state with PC advanced by 2. The wrap of the advance is the spec's decision D5. -/
def Obligations.StepRunsDecodedInstruction : Prop :=
  ∀ (s : State) (b0 b1 : Byte) (i : Instr), Ready s →
    s.readByte (s.reg .pc).toNat = some b0 → s.readByte ((s.reg .pc).toNat + 1) = some b1 →
    decodeBytes b0 b1 = .ok i →
    step s = exec i (s.setReg .pc (s.reg .pc + 2))

/-- 20_memory.md section 4 and 40_engine.md section 1: the table word that `withFetchWord` places at PC is the instruction the very
next step runs. `withFetchWord` is the model's and stands for the host's load (DEDUCED, log entry 15). At PC = 0xFFFE of 65536 bytes the
advance wraps, by the spec's decision D5. -/
def Obligations.PlacedTableWordIsRun : Prop :=
  ∀ (s : State) (w : Nat) (i : Instr), Ready s → Inv s → (s.reg .pc).toNat + 1 < s.params.memSize.val →
    decodeTableWord 16 w = some i →
    step (s.withFetchWord 16 w) = exec i ((s.withFetchWord 16 w).setReg .pc (s.reg .pc + 2))

/-- R121: the fetch is a little-endian word read at PC; it fails exactly when a byte of it is out of bounds; a fetch fault
has `info` PC and changes the fault status alone; a fetch that succeeds raises no fetch fault. -/
def Obligations.FetchFaultChangesOnlyFaultStatus : Prop :=
  ∀ s : State, Ready s →
    (s.params.memSize.val ≤ (s.reg .pc).toNat ∨ s.params.memSize.val ≤ (s.reg .pc).toNat + 1 →
      ∃ r : FaultRecord, r.cause = .fetchFault ∧ r.info = s.reg .pc ∧ step s = .next (s.latch r)) ∧
    ((s.reg .pc).toNat < s.params.memSize.val ∧ (s.reg .pc).toNat + 1 < s.params.memSize.val →
      ∃ b0 b1, s.readByte (s.reg .pc).toNat = some b0 ∧ s.readByte ((s.reg .pc).toNat + 1) = some b1 ∧
        s.fetch = some (zext16 b0 ||| (zext16 b1 <<< 8)) ∧
        ∀ t r, step s = .next t → t.fault = some r → r.cause ≠ .fetchFault)

/-- 40_engine.md section 1 and decision D10: a decode fault leaves PC advanced and changes nothing else but the fault status,
whose record holds the instruction's address, its word and the offending value. -/
def Obligations.DecodeFaultLeavesPcAdvanced : Prop :=
  ∀ (s : State) (w : Word) (e : DecodeError), Ready s → s.fetch = some w → decode w = .error e →
    step s = .next ((s.setReg .pc (s.reg .pc + 2)).latch
      ⟨if e.kind = .unknownOpcode then .unknownOpcode else .badRegister, s.reg .pc, some w, zext16 e.value⟩)

/-- Decision D11: a step of a faulted machine performs no action and returns the latched record again. -/
def Obligations.FaultedStepReturnsSameRecord : Prop :=
  ∀ (s : State) (r : FaultRecord), s.fault = some r →
    step s = .fault (.latched r) ∧ stepResponse s = some (.fault r, s)

/-- 43_signal.md section 2 and decision D22: a step requested while a handler is running never goes through. -/
def Obligations.NestedStepIsRefused : Prop :=
  ∀ (s : State) (h : HandlerId), s.fault = none → s.running = some h →
    step s = .refused (.nestedStep h) ∧ stepResponse s = none

/-- Decision D14: the core does not look at the halt flag. Changing it before a step that runs no handler changes nothing but
the flag afterwards. -/
def Obligations.CoreIgnoresHaltFlag : Prop :=
  ∀ (s : State) (on : Bool), (∀ i, nextInstr s = some i → runsHandler i s = false) →
    step (s.setHalt on) = mapNext (fun t => t.setHalt on) (step s)

/-- 60_exceptions.md section 1 and 00_scope.md section 5 (R15): every step of a machine that is ready has an outcome with a state, Ok or
Fault, unless it runs a handler. That both are a next state of `step`, a fault with its record latched in it, is the model's DESIGN CHOICE
(log entry 9); the next state here may be such a latched fault. -/
def Obligations.ReadyStepWithoutHandlerAlwaysProceeds : Prop :=
  ∀ s : State, Ready s → (∀ i, nextInstr s = some i → runsHandler i s = false) → ∃ t, step s = .next t

/-- 10_state.md R24 and decision D5: once the fetch has succeeded, PC is the fetch address plus 2 after the step, for a decode
fault, for a body fault, and for every instruction that does not itself write PC. -/
def Obligations.PcAdvancesUnlessWritten : Prop :=
  ∀ (s t : State) (w : Word), step s = .next t → s.fetch = some w →
    (∀ i, nextInstr s = some i → runsHandler i s = false ∧ (Reg.pc ∉ writtenSlots i ∨ ∃ r, t.fault = some r)) →
    t.reg .pc = s.reg .pc + 2

/-- 60_exceptions.md section 1 and decision D10: a fault record names the address and the word of the instruction whose step
faulted, and it has no word exactly for a fetch fault. -/
def Obligations.FaultRecordNamesFaultingInstruction : Prop :=
  ∀ (s t : State) (r : FaultRecord), step s = .next t → t.fault = some r →
    r.pc = s.reg .pc ∧ r.word = s.fetch ∧ (r.word = none ↔ r.cause = .fetchFault)

/-- R182: the faults each instruction can raise. STACK_UNDERFLOW arises only when the check is on. -/
def Obligations.EachInstructionRaisesOnlyItsFaults : Prop :=
  ∀ (s t : State) (r : FaultRecord), step s = .next t → t.fault = some r →
    (s.fetch = none ∧ r.cause = .fetchFault) ∨
    ∃ w, s.fetch = some w ∧
      match decode w with
      | .ok .nop => False
      | .ok (.push _) => r.cause = .memWriteFault
      | .ok (.popRegister _) =>
        r.cause = .memReadFault ∨ (r.cause = .stackUnderflow ∧ s.params.stackUnderflowCheck = true)
      | .ok .addStack =>
        r.cause = .memReadFault ∨ (r.cause = .stackUnderflow ∧ s.params.stackUnderflowCheck = true)
      | .ok (.addRegister _ _) => False
      | .ok (.signal _) => r.cause = .dispatchFault
      | .error _ =>
        (((lowByte w).toNat = 2 ∨ (lowByte w).toNat = 4) ∧ r.cause = .badRegister) ∨
          (5 < (lowByte w).toNat ∧ r.cause = .unknownOpcode)

/-! ### Whole-machine rules -/

/-- Every step from a state that meets the invariant leaves a state that meets it: memory and handler table keep their canonical
forms, no byte appears outside the backing store, and no handler is left running. -/
def Obligations.EveryStepKeepsInvariant : Prop :=
  ∀ s t : State, Inv s → step s = .next t → Inv t

/-- 10_state.md section 4 (decisions D7 and D15): no step changes the parameters. -/
def Obligations.StepNeverChangesParameters : Prop :=
  ∀ s t : State, step s = .next t → t.params = s.params

/-- 10_state.md section 2: a handler cannot be removed once defined, only replaced: no step empties a table entry. -/
def Obligations.HandlerEntriesAreNeverEmptied : Prop :=
  ∀ (s t : State) (code : Byte), step s = .next t →
    (s.handlerAt code).isSome = true → (t.handlerAt code).isSome = true

/-- 10_state.md section 2: an instruction that runs no handler writes neither the halt flag nor the handler table. 10_state.md section 4
(R32, R33): nor the running handler, which is a field of the model (DESIGN CHOICE, log entry 13), nor the parameters, which no step
changes at all. -/
def Obligations.OnlyHandlersWriteHaltAndTable : Prop :=
  ∀ (i : Instr) (s t : State), exec i s = .next t → runsHandler i s = false → SameHostSide s t

/-- 10_state.md section 1 (R23): a slot that is not in the instruction's row, and is not PC, is neither read nor written by a
step that runs no handler: changing it beforehand changes nothing but that slot afterwards. So Flags, M and BP have no part in
an instruction that does not name them. -/
def Obligations.UnlistedSlotsAreNeitherReadNorWritten : Prop :=
  ∀ (s : State) (q : Reg) (v : Word), q ≠ .pc →
    (∀ i, nextInstr s = some i → runsHandler i s = false ∧ q ∉ readSlots i ∧ q ∉ writtenSlots i) →
    step (s.setReg q v) = mapNext (fun t => t.setReg q v) (step s)

/-- 10_state.md section 1: the registers an instruction leaves alone, for every instruction that runs no handler and whether or not
it faults. -/
def Obligations.RegistersNotWrittenAreUnchanged : Prop :=
  ∀ (i : Instr) (s t : State) (q : Reg), exec i s = .next t → runsHandler i s = false → q ∉ writtenSlots i →
    t.reg q = s.reg q

/-! ### Nop -/

/-- 40_engine.md section 2: Nop has no effect. -/
def Obligations.NopCompletesWithNoEffect : Prop := ∀ s : State, exec .nop s = .next s

/-! ### Push -/

/-- 41_stack.md sections 1 and 2: with both bytes at SP in bounds, Push completes: the word at SP is the value, SP is 2 higher (the wrap is
decision D6), and every other register, every byte outside the two stored, and everything else is unchanged. -/
def Obligations.PushStoresValueAtSp : Prop :=
  ∀ (v : Word) (s : State), Memory.wf s.mem = true → (s.reg .sp).toNat + 1 < s.params.memSize.val →
    ∃ t, exec (.push v) s = .next t ∧
      t.readByte (s.reg .sp).toNat = some (lowByte v) ∧ t.readByte ((s.reg .sp).toNat + 1) = some (highByte v) ∧
      t.reg .sp = s.reg .sp + 2 ∧ (∀ q, q ≠ .sp → t.reg q = s.reg q) ∧
      (∀ a, a ≠ (s.reg .sp).toNat → a ≠ (s.reg .sp).toNat + 1 → t.readByte a = s.readByte a) ∧
      SameControl s t

/-- 41_stack.md section 1 and decisions D4, D10 and D13: a Push whose word is out of bounds takes MEM_WRITE_FAULT naming SP. No
register changes. No byte changes but the one at SP, and that one only when it alone is in bounds: it keeps its value or takes
the low byte, whichever the free value says. -/
def Obligations.PushOutOfBoundsTakesWriteFault : Prop :=
  ∀ (v : Word) (s : State), Memory.wf s.mem = true → s.params.memSize.val ≤ (s.reg .sp).toNat + 1 →
    ∃ t, exec (.push v) s = .next t ∧
      t.fault = some ⟨.memWriteFault, s.reg .pc - 2, s.readWord (s.reg .pc - 2).toNat, s.reg .sp⟩ ∧
      (∀ q, t.reg q = s.reg q) ∧ SameHostSide s t ∧
      (∀ a, a ≠ (s.reg .sp).toNat → t.readByte a = s.readByte a) ∧
      (s.params.memSize.val ≤ (s.reg .sp).toNat → SameBytes s t) ∧
      ((s.reg .sp).toNat < s.params.memSize.val →
        t.readByte (s.reg .sp).toNat = s.readByte (s.reg .sp).toNat ∨
          t.readByte (s.reg .sp).toNat = some (lowByte v))

/-- 20_memory.md section 5: a push onto the address PC holds is what the next fetch reads; nothing is prefetched. -/
def Obligations.PushIsSeenByNextFetch : Prop :=
  ∀ (v : Word) (s : State), Memory.wf s.mem = true → (s.reg .sp).toNat + 1 < s.params.memSize.val →
    s.reg .sp = s.reg .pc → ∃ t, exec (.push v) s = .next t ∧ t.fetch = some v

/-- 41_stack.md section 1 (R132): a pop after a push that succeeded returns the value and leaves SP as before the push. The model adds a
premise R132 does not state, that the pop's own check passes: with STACK_UNDERFLOW_CHECK on and SP = 0xFFFE the push wraps SP to 0
and R131 makes the pop fault, which the second clause says (log entry 14). -/
def Obligations.PopAfterPushReturnsValue : Prop :=
  ∀ (v : Word) (s t : State), Memory.wf s.mem = true → push v s = .done () t →
    (underflows t = false → ∃ u, pop t = .done v u ∧ u.reg .sp = s.reg .sp) ∧
    (s.params.stackUnderflowCheck = true ∧ s.reg .sp = 0xFFFE#16 → pop t = .raised (t.raise .stackUnderflow 0))

/-! ### PopRegister -/

/-- 41_stack.md section 3: with the word below SP readable, PopRegister completes: the register takes the word, SP is 2 lower unless the
register is SP itself, and nothing else changes. It covers `PopRegister SP`, `PopRegister PC` and `PopRegister Flags`. -/
def Obligations.PopRegisterLoadsTopOfStack : Prop :=
  ∀ (r : Reg) (s : State) (v : Word), underflows s = false → s.readWord (s.reg .sp - 2).toNat = some v →
    ∃ t, exec (.popRegister r) s = .next t ∧ t.reg r = v ∧ (r ≠ .sp → t.reg .sp = s.reg .sp - 2) ∧
      (∀ q, q ≠ r → q ≠ .sp → t.reg q = s.reg q) ∧ SameBytes s t ∧ SameControl s t

/-- 41_stack.md section 1 (decisions D7, D10 and D13): where the pop fails, PopRegister changes the fault status alone. -/
def Obligations.PopRegisterFaultChangesOnlyFaultStatus : Prop :=
  ∀ (r : Reg) (s : State),
    (s.params.stackUnderflowCheck = true ∧ (s.reg .sp).toNat < 2 →
      exec (.popRegister r) s =
        .next (s.latch ⟨.stackUnderflow, s.reg .pc - 2, s.readWord (s.reg .pc - 2).toNat, s.reg .sp⟩)) ∧
    (¬(s.params.stackUnderflowCheck = true ∧ (s.reg .sp).toNat < 2) →
      s.params.memSize.val ≤ (s.reg .sp - 2).toNat + 1 →
      exec (.popRegister r) s =
        .next (s.latch ⟨.memReadFault, s.reg .pc - 2, s.readWord (s.reg .pc - 2).toNat, s.reg .sp - 2⟩))

/-- 41_stack.md section 3 (R144): a step that runs `PopRegister PC` sends the next fetch to the popped value, aligned or not. -/
def Obligations.PopRegisterPcJumpsToPoppedValue : Prop :=
  ∀ (s : State) (v : Word), Ready s → nextInstr s = some (.popRegister .pc) → underflows s = false →
    s.readWord (s.reg .sp - 2).toNat = some v →
    ∃ t, step s = .next t ∧ t.reg .pc = v ∧ t.reg .sp = s.reg .sp - 2 ∧ t.fault = none ∧
      t.fetch = s.readWord v.toNat

/-! ### AddStack -/

/-- 41_stack.md section 4: with both words readable, AddStack completes: their sum modulo 65536 is stored where the second was, SP is 2
lower, and every other register, every other byte and everything else is unchanged. -/
def Obligations.AddStackReplacesTwoWordsByTheirSum : Prop :=
  ∀ (s : State) (a1 b1 : Word), Memory.wf s.mem = true →
    (s.params.stackUnderflowCheck = true → 4 ≤ (s.reg .sp).toNat) →
    s.readWord (s.reg .sp - 2).toNat = some a1 → s.readWord (s.reg .sp - 4).toNat = some b1 →
    ∃ t sum, exec .addStack s = .next t ∧ t.readWord (s.reg .sp - 4).toNat = some sum ∧
      sum.toNat = (a1.toNat + b1.toNat) % 65536 ∧
      t.reg .sp = s.reg .sp - 2 ∧ (∀ q, q ≠ .sp → t.reg q = s.reg q) ∧
      (∀ a, a ≠ (s.reg .sp - 4).toNat → a ≠ (s.reg .sp - 4).toNat + 1 → t.readByte a = s.readByte a) ∧
      SameControl s t

/-- R146: a failing first pop changes the fault status alone; a failing second pop leaves SP two lower as well; the rule's own example at
SP = 2 with 8192 bytes. -/
def Obligations.AddStackFaultKeepsEarlierEffects : Prop :=
  (∀ s : State,
    (∀ v u, pop s ≠ .done v u) → ∃ r, exec .addStack s = .next (s.latch r)) ∧
  (∀ (s u : State) (v : Word), pop s = .done v u → (∀ b x, pop u ≠ .done b x) →
    ∃ r, exec .addStack s = .next ((s.setReg .sp (s.reg .sp - 2)).latch r)) ∧
  (∀ s : State, s.params.memSize.val = 8192 → s.params.stackUnderflowCheck = false → s.reg .sp = 2 →
    ∃ r, exec .addStack s = .next ((s.setReg .sp 0).latch r) ∧ r.cause = .memReadFault ∧ r.info = 0xFFFE#16)

/-- R147: after both pops succeed SP is four lower, the second pop has just read that address, and the push of the sum cannot fail. -/
def Obligations.AddStackPushCannotFail : Prop :=
  ∀ (s s1 s2 : State) (a1 b1 : Word), pop s = .done a1 s1 → pop s1 = .done b1 s2 →
    s2.reg .sp = s.reg .sp - 4 ∧ s1.readWord (s2.reg .sp).toNat = some b1 ∧
      ∃ t, push (aluAdd a1 b1) s2 = .done () t

/-! ### AddRegister -/

/-- 42_register.md: AddRegister completes from every state: r1 takes the sum of both old values modulo 65536, and every other
register (Flags among them), every byte and everything else is unchanged. -/
def Obligations.AddRegisterAddsSecondIntoFirst : Prop :=
  ∀ (r1 r2 : Reg) (s : State),
    ∃ t, exec (.addRegister r1 r2) s = .next t ∧
      (t.reg r1).toNat = ((s.reg r1).toNat + (s.reg r2).toNat) % 65536 ∧
      (∀ q, q ≠ r1 → t.reg q = s.reg q) ∧ SameBytes s t ∧ SameControl s t

/-- R151: one register as both operands is doubled modulo 65536; 0x8001 gives 0x0002. -/
def Obligations.AddRegisterToItselfDoubles : Prop :=
  ∀ (r : Reg) (s : State),
    ∃ t, exec (.addRegister r r) s = .next t ∧ (t.reg r).toNat = 2 * (s.reg r).toNat % 65536 ∧
      (s.reg r = 0x8001#16 → t.reg r = 0x0002#16)

/-- R153: `AddRegister SP, r2` moves SP by the register's value modulo 65536 and touches no memory; 0xFFFE means minus 2. -/
def Obligations.AddRegisterSpMovesStackPointer : Prop :=
  ∀ (r2 : Reg) (s : State),
    ∃ t, exec (.addRegister .sp r2) s = .next t ∧
      (t.reg .sp).toNat = ((s.reg .sp).toNat + (s.reg r2).toNat) % 65536 ∧
      (s.reg r2 = 0xFFFE#16 → t.reg .sp = s.reg .sp - 2) ∧ SameBytes s t

/-- 42_register.md (R152, R154): a step that runs `AddRegister PC, r2` sends the next fetch to the next instruction's address plus the
register; with r2 = PC that is twice the next instruction's address. -/
def Obligations.AddRegisterPcJumpsFromNextInstruction : Prop :=
  ∀ (s : State) (r2 : Reg), Ready s → nextInstr s = some (.addRegister .pc r2) →
    ∃ t, step s = .next t ∧ t.fault = none ∧
      (r2 ≠ .pc → t.reg .pc = s.reg .pc + 2 + s.reg r2) ∧
      (r2 = .pc → t.reg .pc = 2 * (s.reg .pc + 2)) ∧
      t.fetch = s.readWord (t.reg .pc).toNat

/-! ### Signal -/

/-- 43_signal.md section 2 and decisions D10 and D26: a Signal with no handler takes the dispatch fault and changes nothing else. -/
def Obligations.UnregisteredSignalTakesDispatchFault : Prop :=
  ∀ (code : Byte) (s : State), s.handlerAt code = none →
    exec (.signal code) s =
      .next (s.latch ⟨.dispatchFault, s.reg .pc - 2, s.readWord (s.reg .pc - 2).toNat, zext16 code⟩)

/-- 43_signal.md sections 1 and 2: a Signal whose handler returns completes, and the state is exactly what the handler's writes left: nothing
is pushed, saved or restored around them. It holds for every handler, free or with a script. The handler starts on the machine as it
stands: every register, byte, table entry and flag is the one the Signal found, and the handler's identity is R32's hidden state while it
runs. The writes in a list are the model's form of a handler (DESIGN CHOICE, log entry 8), and the running handler is a field (log entry
13). The last clause is the handler with a script: it does that script, and no draw is used. -/
def Obligations.SignalRunsRegisteredHandler : Prop :=
  ∀ (code : Byte) (s : State) (h : HandlerId), s.handlerAt code = some h →
    (handlerBehaviour h s).ending = .returns →
    exec (.signal code) s = .next (leaveTrap (runActs (handlerBehaviour h s).acts (enterTrap h s))) ∧
    (enterTrap h s).regs = s.regs ∧ SameBytes s (enterTrap h s) ∧ (enterTrap h s).halt = s.halt ∧
    (enterTrap h s).handlers = s.handlers ∧ (enterTrap h s).params = s.params ∧ (enterTrap h s).fault = s.fault ∧
    (enterTrap h s).running = some h ∧
    ∀ acts, s.params.handlerScripts[h]? = some ⟨acts, .returns⟩ →
      exec (.signal code) s = .next ((runActs acts (s.setRunning (some h))).setRunning none)

/-- 43_signal.md section 2: what each of a handler's writes does, one access at a time: registers, bytes and words, copies, halt flag and
table. A byte or word write whose address is out of bounds changes nothing (R170). A copy within bounds onto a lower address, or onto a
range that does not overlap, is read back (the order is decision D19) and leaves every byte outside its target alone. The list of writes is
the model's form of a handler (DESIGN CHOICE, log entry 8). -/
def Obligations.HandlerWritesReachTheWholeMachine : Prop :=
  ∀ s : State, Memory.wf s.mem = true →
    (∀ r v, (runAct (.setReg r v) s).reg r = v ∧ ∀ q, q ≠ r → (runAct (.setReg r v) s).reg q = s.reg q) ∧
    (∀ dst src, (runAct (.copyReg dst src) s).reg dst = s.reg src) ∧
    (∀ a v, (a.toNat < s.params.memSize.val → (runAct (.writeByte a v) s).readByte a.toNat = some v) ∧
      (s.params.memSize.val ≤ a.toNat → runAct (.writeByte a v) s = s)) ∧
    (∀ a v, (a.toNat + 1 < s.params.memSize.val → (runAct (.writeWord a v) s).readWord a.toNat = some v) ∧
      (s.params.memSize.val ≤ a.toNat → runAct (.writeWord a v) s = s)) ∧
    (∀ (src dst : Word) (len : Nat),
      (∀ k, k < len → src.toNat + k < s.params.memSize.val ∧ dst.toNat + k < s.params.memSize.val) →
      (dst.toNat ≤ src.toNat ∨ src.toNat + len ≤ dst.toNat →
        ∀ k, k < len → (runAct (.copy src dst len) s).readByte (dst.toNat + k) = s.readByte (src.toNat + k)) ∧
      ∀ a, a < dst.toNat ∨ dst.toNat + len ≤ a → (runAct (.copy src dst len) s).readByte a = s.readByte a) ∧
    (∀ on, (runAct (.setHalt on) s).halt = on) ∧
    (∀ code h, (runAct (.define code h) s).handlerAt code = some h ∧
      ∀ d, d ≠ code → (runAct (.define code h) s).handlerAt d = s.handlerAt d)

/-- 43_signal.md section 2 (R169): a handler that defines a handler for any code, its own included, at any point of its run, changes the
table at once and still runs to its end, as the same handler; unless it defines that code again, the next Signal of the code runs the new
handler. It holds for every handler, free or with a script. The writes in a list, settled when the handler is dispatched, are the model's form
of a handler (DESIGN CHOICE, log entry 8). -/
def Obligations.RedefinitionDoesNotChangeRunningHandler : Prop :=
  ∀ (code c : Byte) (s : State) (h g : HandlerId) (pre rest : List HostAct), s.handlerAt code = some h →
    handlerBehaviour h s = ⟨pre ++ .define c g :: rest, .returns⟩ →
    ∃ m t, m = (runActs pre (enterTrap h s)).defineHandler c g ∧ m.handlerAt c = some g ∧ m.running = some h ∧
      t = leaveTrap (runActs rest m) ∧ exec (.signal code) s = .next t ∧
      ((∀ k, HostAct.define c k ∉ rest) → t.handlerAt c = some g ∧ exec (.signal c) t = trap c g t ∧
        ((handlerBehaviour g t).ending = .returns →
          exec (.signal c) t = .next (leaveTrap (runActs (handlerBehaviour g t).acts (enterTrap g t)))))

/-- 43_signal.md section 2 (decisions D15 and D23): a handler raises no core fault and touches neither the fault status nor the
parameters, whatever the host's code does. -/
def Obligations.HandlersNeverRaiseACoreFault : Prop :=
  ∀ (code : Byte) (s t : State) (h : HandlerId), s.handlerAt code = some h →
    exec (.signal code) s = .next t → t.fault = s.fault ∧ t.params = s.params ∧ t.running = none

/-- 43_signal.md section 2 (decisions D15 and D22): a handler that never returns leaves the Signal without an outcome, and one that starts a
step is refused, whether it is free or has a script; and a Signal has no next state in these two cases only. The two endings are the model's
form of a handler (DESIGN CHOICE, log entry 8); that no outcome is the stuck fault, and a nested step a refusal, is log entry 18 (DEDUCED and
UNVERIFIED). -/
def Obligations.SignalStopsOnlyWithItsHandler : Prop :=
  ∀ (code : Byte) (s : State),
    (∀ h, s.handlerAt code = some h →
      ((handlerBehaviour h s).ending = .never → exec (.signal code) s = .fault (.handlerNeverReturns code)) ∧
      ((handlerBehaviour h s).ending = .startsStep → exec (.signal code) s = .refused (.nestedStep h))) ∧
    ((∀ t, exec (.signal code) s ≠ .next t) ↔
      ∃ h, s.handlerAt code = some h ∧
        ((handlerBehaviour h s).ending = .never ∨ (handlerBehaviour h s).ending = .startsStep))

/-! ### Memory -/

/-- R54 and R55: byte access below MEM_SIZE reads and writes that byte; any other fails and changes nothing. -/
def Obligations.ByteAccessObeysBounds : Prop :=
  ∀ (s : State) (a : Nat) (v : Byte), Memory.wf s.mem = true →
    (a < s.params.memSize.val →
      s.readByte a = some (memLookup s.mem a) ∧
      ∃ t, s.writeByte a v = .ok t ∧ t.readByte a = some v ∧ (∀ b, b ≠ a → t.readByte b = s.readByte b) ∧
        t.regs = s.regs ∧ SameControl s t) ∧
    (s.params.memSize.val ≤ a → s.readByte a = none ∧ s.writeByte a v = .fail s)

/-- R53: words are little-endian, for data reads, data writes and fetch alike; the bytes 01 0A are Push 10. -/
def Obligations.WordsAreLittleEndian : Prop :=
  (∀ (s : State) (a : Nat) (b0 b1 : Byte), s.readByte a = some b0 → s.readByte (a + 1) = some b1 →
    s.readWord a = some (zext16 b0 ||| (zext16 b1 <<< 8)) ∧
    ((s.reg .pc).toNat = a → s.fetch = some (zext16 b0 ||| (zext16 b1 <<< 8)))) ∧
  (∀ (s t : State) (a : Nat) (v : Word), Memory.wf s.mem = true → s.writeWord a v = .ok t →
    t.readByte a = some (v.extractLsb' 0 8) ∧ t.readByte (a + 1) = some (v.extractLsb' 8 8)) ∧
  decodeBytes 0x01#8 0x0A#8 = .ok (.push 10)

/-- R58: a byte written is the low half of the word there and the high half of the word below; words that overlap share the
byte. -/
def Obligations.BytesAndWordsShareStorage : Prop :=
  (∀ (s t : State) (a : Nat) (v : Byte), Memory.wf s.mem = true → s.writeByte a v = .ok t →
    (∀ w, t.readWord a = some w → w.extractLsb' 0 8 = v) ∧
    (∀ w b, b + 1 = a → t.readWord b = some w → w.extractLsb' 8 8 = v)) ∧
  (∀ (s : State) (a : Nat) (w0 w1 : Word), s.readWord a = some w0 → s.readWord (a + 1) = some w1 →
    w0.extractLsb' 8 8 = w1.extractLsb' 0 8)

/-- 20_memory.md section 2 and decisions D3 and D4: a word access succeeds exactly when both bytes exist, whatever the alignment. A failed
write changes no register, no fault status, nothing on the host's side, and no byte but the one at its own address, and that one only when
the high half alone is out of bounds: it keeps its value or takes the low byte. -/
def Obligations.WordWriteFailsWithoutBothBytes : Prop :=
  ∀ (s : State) (a : Nat) (v : Word), Memory.wf s.mem = true →
    ((∃ w, s.readWord a = some w) ↔ a + 1 < s.params.memSize.val) ∧
    ((∃ t, s.writeWord a v = .ok t) ↔ a + 1 < s.params.memSize.val) ∧
    ∀ t, s.writeWord a v = .fail t →
      (∀ b, b ≠ a → t.readByte b = s.readByte b) ∧
      (s.params.memSize.val ≤ a → t = s) ∧
      (t.readByte a = s.readByte a ∨ t.readByte a = some (lowByte v)) ∧
      t.regs = s.regs ∧ t.fault = s.fault ∧ SameHostSide s t

/-- 20_memory.md section 2 and decision D3: a word at 0xFFFF fails whatever the memory size; it never wraps to byte 0. -/
def Obligations.WordAtTopAddressAlwaysFails : Prop :=
  ∀ (s : State) (v : Word), s.readWord 0xFFFF = none ∧ ∃ t, s.writeWord 0xFFFF v = .fail t

/-- 20_memory.md section 4 and decision D19: `copy` stops at the first index whose read or write is out of bounds and keeps the bytes copied
before it; it succeeds exactly when there is no such index. A copy that succeeds changes nothing but its target range. Each target byte is
the source's byte of before the copy, if the target lies lower or does not overlap; and if it lies higher, the source's byte of after it, so
that the ascending order repeats bytes. -/
def Obligations.CopyStopsAtFirstFailureWithoutRollback : Prop :=
  ∀ (src dst len : Nat) (s : State),
    ((∃ t, State.copyBytes src dst len s = .ok t) ↔
      ∀ k, k < len → src + k < s.params.memSize.val ∧ dst + k < s.params.memSize.val) ∧
    (∀ t, State.copyBytes src dst len s = .fail t →
      ∃ k, k < len ∧ ¬(src + k < s.params.memSize.val ∧ dst + k < s.params.memSize.val) ∧
        State.copyBytes src dst k s = .ok t) ∧
    ∀ t, Memory.wf s.mem = true → State.copyBytes src dst len s = .ok t →
      t.regs = s.regs ∧ SameControl s t ∧
      (∀ a, a < dst ∨ dst + len ≤ a → t.readByte a = s.readByte a) ∧
      (dst ≤ src ∨ src + len ≤ dst → ∀ k, k < len → t.readByte (dst + k) = s.readByte (src + k)) ∧
      (src < dst → ∀ k, k < len → t.readByte (dst + k) = t.readByte (src + k))

/-- 20_memory.md section 4 and decision D20: a program that fits is loaded byte for byte from address 0 into zero-filled memory; a longer one is
a load error. -/
def Obligations.LoadPlacesProgramAtZero : Prop :=
  ∀ (p : Params) (program : List Byte),
    (program.length ≤ p.memSize.val →
      ∃ t, loadProgram program 0 (State.construct p) = .ok t ∧
        ∀ a, a < p.memSize.val → t.readByte a = some (program.getD a 0)) ∧
    (p.memSize.val < program.length → ∃ t, loadProgram program 0 (State.construct p) = .fail t)

/-! ### Encoding -/

/-- Words written out from 30_encoding.md's formats decode to the instructions they stand for. The register numbers are decision D2, the
ignored high bytes decision D8. -/
def Obligations.WordsFromTheTablesDecode : Prop :=
  decode 0xFF00#16 = .ok .nop ∧ decode 0x0A01#16 = .ok (.push 10) ∧ decode 0x0402#16 = .ok (.popRegister .sp) ∧
  decode 0xAB03#16 = .ok .addStack ∧ decode 0x6704#16 = .ok (.addRegister .flags .bp) ∧
  decode 0xF005#16 = .ok (.signal 0xF0) ∧
  decode 0x0902#16 = .error ⟨.badRegister, 0x0902, 9⟩ ∧ decode 0x1234#16 = .error ⟨.unknownOpcode, 0x1234, 0x34⟩

/-- 30_encoding.md section 4 (R95's first law, decisions D2 and D8): decoding an encoded instruction gives it back, for every well-formed
instruction with every operand. -/
def Obligations.DecodeOfEncodeIsIdentity : Prop :=
  ∀ i : Instr, WellFormed i → decode (encode i) = .ok i

/-- 30_encoding.md section 4 (R95's third law, decisions D2 and D8): encoding a decoded word gives the word back, but for the
alternate Nop and AddStack words, which come back with a high byte of 0. -/
def Obligations.EncodeOfDecodeIsCanonicalWord : Prop :=
  ∀ (w : Word) (i : Instr), decode w = .ok i →
    encode i = if i = .nop ∨ i = .addStack then w &&& 0x00FF#16 else w

/-- R93: Push is the only instruction whose encoding drops bits: two instructions with one word are equal, or are two Pushes whose
values agree in their low 8 bits; and a Push above 0xFF encodes, and decodes, as its low 8 bits. -/
def Obligations.OnlyPushLosesBitsInEncoding : Prop :=
  (∀ i j : Instr, encode i = encode j →
    i = j ∨ ∃ u v, i = .push u ∧ j = .push v ∧ u &&& 0xFF#16 = v &&& 0xFF#16) ∧
  (∀ v : Word, encode (.push v) = encode (.push (v &&& 0xFF#16)) ∧
    decode (encode (.push v)) = .ok (.push (v &&& 0xFF#16)))

/-- R83: an opcode-1 word is a Push of its high byte, zero-extended: 0 to 255. -/
def Obligations.PushImmediateIsZeroExtended : Prop :=
  ∀ w : Word, w.extractLsb' 0 8 = 1#8 →
    ∃ v, decode w = .ok (.push v) ∧ v.toNat = (w.extractLsb' 8 8).toNat ∧ v.toNat ≤ 255

/-- R84: an opcode-2 word is a PopRegister of the register its whole high byte indexes, or a decode error when that is 8 or more. -/
def Obligations.PopRegisterIndexIsWholeHighByte : Prop :=
  ∀ w : Word, w.extractLsb' 0 8 = 2#8 →
    ((w.extractLsb' 8 8).toNat ≤ 7 →
      ∃ r, decode w = .ok (.popRegister r) ∧ regIndex r = (w.extractLsb' 8 8).toNat ∧
        w.extractLsb' 11 5 = 0#5 ∧ regIndex r = (w.extractLsb' 8 3).toNat) ∧
    (7 < (w.extractLsb' 8 8).toNat → ∃ e, decode w = .error e)

/-- R85: an opcode-4 word is an AddRegister of the registers its two nibbles index, each checked on its own; bits 11:8 name the
destination and first source, bits 15:12 the second source. -/
def Obligations.AddRegisterFieldsAreCheckedSeparately : Prop :=
  ∀ w : Word, w.extractLsb' 0 8 = 4#8 →
    ((w.extractLsb' 8 4).toNat ≤ 7 ∧ (w.extractLsb' 12 4).toNat ≤ 7 →
      ∃ r1 r2, decode w = .ok (.addRegister r1 r2) ∧ regIndex r1 = (w.extractLsb' 8 4).toNat ∧
        regIndex r2 = (w.extractLsb' 12 4).toNat ∧ w.getLsbD 11 = false ∧ w.getLsbD 15 = false ∧
        ∀ s : State, ∃ t, exec (.addRegister r1 r2) s = .next t ∧ t.reg r1 = s.reg r1 + s.reg r2) ∧
    (7 < (w.extractLsb' 8 4).toNat ∨ 7 < (w.extractLsb' 12 4).toNat → ∃ e, decode w = .error e)

/-- R87: an opcode-5 word is a Signal of its high byte, 0 to 255; every code decodes. Whether a handler exists is checked only at
execution: the Signal of a code with no handler raises the dispatch fault there, and one with a handler runs it. -/
def Obligations.EverySignalCodeDecodes : Prop :=
  ∀ w : Word, w.extractLsb' 0 8 = 5#8 →
    decode w = .ok (.signal (w.extractLsb' 8 8)) ∧
    ∀ s : State,
      (s.handlerAt (w.extractLsb' 8 8) = none →
        ∃ r, exec (.signal (w.extractLsb' 8 8)) s = .next (s.latch r) ∧ r.cause = .dispatchFault) ∧
      (∀ h, s.handlerAt (w.extractLsb' 8 8) = some h →
        exec (.signal (w.extractLsb' 8 8)) s = trap (w.extractLsb' 8 8) h s)

/-- R90: the illegal words are decode errors: unknown opcodes, and register fields above 7. -/
def Obligations.IllegalWordsAreDecodeErrors : Prop :=
  ∀ w : Word,
    (6 ≤ (w.extractLsb' 0 8).toNat →
      ∃ e, decode w = .error e ∧ e.kind = .unknownOpcode ∧ e.word = w ∧ e.value = w.extractLsb' 0 8) ∧
    (w.extractLsb' 0 8 = 2#8 ∧ 8 ≤ (w.extractLsb' 8 8).toNat →
      ∃ e, decode w = .error e ∧ e.kind = .badRegister ∧ e.word = w) ∧
    (w.extractLsb' 0 8 = 4#8 ∧ (8 ≤ (w.extractLsb' 8 4).toNat ∨ 8 ≤ (w.extractLsb' 12 4).toNat) →
      ∃ e, decode w = .error e ∧ e.kind = .badRegister ∧ e.word = w)

/-- 30_encoding.md section 2 (R88, decision D8): a word decodes exactly when it belongs to a row of the opcode map, and it belongs to at
most one. 30_encoding.md section 3 (R89): a word that does not decode gives an error with that word and the offending value: the opcode byte,
PopRegister's whole high byte, or the AddRegister field that is bad, r1 first when both are (decision D9). -/
def Obligations.WordDecodesExactlyWhenInOneRow : Prop :=
  ∀ w : Word,
    ((∃ i, decode w = .ok i) ↔ ∃ r ∈ opcodeRows, w &&& r.mask = r.bits) ∧
    (∀ r ∈ opcodeRows, ∀ q ∈ opcodeRows, w &&& r.mask = r.bits → w &&& q.mask = q.bits → r = q) ∧
    ∀ e, decode w = .error e →
      e.word = w ∧ (e.kind = .unknownOpcode ↔ 6 ≤ (w.extractLsb' 0 8).toNat) ∧
      e.value.toNat =
        if (w.extractLsb' 0 8).toNat = 2 then (w.extractLsb' 8 8).toNat
        else if (w.extractLsb' 0 8).toNat = 4 then
          (if 8 ≤ (w.extractLsb' 8 4).toNat then (w.extractLsb' 8 4).toNat else (w.extractLsb' 12 4).toNat)
        else (w.extractLsb' 0 8).toNat

/-! ### Toolchain and host -/

/-- 30_encoding.md section 5 (R98): no line of text assembles to a Nop, and the line `Nop` is an unknown mnemonic. -/
def Obligations.TextFormCannotSpellNop : Prop :=
  (∀ (line : List Char) (i : Instr), assembleLine line = .ok (some i) → i ≠ .nop) ∧
  assembleLine ['N', 'o', 'p'] = .error ⟨.unknownMnemonic, ['N', 'o', 'p']⟩

/-- 30_encoding.md section 5 (R104) and 20_memory.md section 4: once assembled and loaded into a constructed machine, the k-th instruction's word is
the word at address 2k. -/
def Obligations.AssembledProgramIsLaidOutInOrder : Prop :=
  ∀ (p : Params) (lines : List (List Char)) (bytes : List Byte) (is : List Instr),
    assembleLines lines = .ok is → assemble lines = .ok bytes → 2 * is.length ≤ p.memSize.val →
    ∃ t, loadProgram bytes 0 (State.construct p) = .ok t ∧
      ∀ (k : Nat) (i : Instr), is[k]? = some i → t.readWord (2 * k) = some (encode i)

/-- 00_scope.md section 4 and 40_engine.md section 3: the driving loop ends halted only after a step that returned Ok with the halt flag set, and
faulted only with the latched record. 40_engine.md section 1 (R127) and decision D11, the spec's own latch (log entry 9): a faulted end
stays the end under more steps. A loop that would go on has taken no step at all, or has neither fault nor halt flag. -/
def Obligations.DrivingLoopEndsByItsContract : Prop :=
  ∀ (n : Nat) (s : State),
    (∀ t, drive n s = .halted t → t.halt = true ∧ t.fault = none ∧ ∃ u, step u = .next t) ∧
    (∀ t r, drive n s = .faulted r t → t.fault = some r ∧ ∀ m, drive (m + 1) t = .faulted r t) ∧
    (∀ t, drive n s = .going t → n = 0 ∨ (t.fault = none ∧ t.halt = false))
end

