-- ==== Sys2Proof/Laws/State.lean ====
section
/-! SUPPORT. One lemma per field of State per update, and what the plain accessors read after each update. -/

namespace Sys2Proof.Machine

/-! `State.setReg`. -/

@[simp] theorem State.setReg_regs (s : State) (r : Reg) (v : Word) : (s.setReg r v).regs = regSet s.regs r v := rfl
@[simp] theorem State.setReg_halt (s : State) (r : Reg) (v : Word) : (s.setReg r v).halt = s.halt := rfl
@[simp] theorem State.setReg_handlers (s : State) (r : Reg) (v : Word) : (s.setReg r v).handlers = s.handlers := rfl
@[simp] theorem State.setReg_running (s : State) (r : Reg) (v : Word) : (s.setReg r v).running = s.running := rfl
@[simp] theorem State.setReg_fault (s : State) (r : Reg) (v : Word) : (s.setReg r v).fault = s.fault := rfl
@[simp] theorem State.setReg_mem (s : State) (r : Reg) (v : Word) : (s.setReg r v).mem = s.mem := rfl
@[simp] theorem State.setReg_params (s : State) (r : Reg) (v : Word) : (s.setReg r v).params = s.params := rfl
@[simp] theorem State.setReg_draws (s : State) (r : Reg) (v : Word) : (s.setReg r v).draws = s.draws := rfl
@[simp] theorem State.setReg_readByte (s : State) (r : Reg) (v : Word) (a : Nat) : (s.setReg r v).readByte a = s.readByte a := rfl
@[simp] theorem State.setReg_readWord (s : State) (r : Reg) (v : Word) (a : Nat) : (s.setReg r v).readWord a = s.readWord a := rfl
@[simp] theorem State.setReg_valid (s : State) (r : Reg) (v : Word) (a : Nat) : (s.setReg r v).valid a = s.valid a := rfl
@[simp] theorem State.setReg_handlerAt (s : State) (r : Reg) (v : Word) (k : Byte) : (s.setReg r v).handlerAt k = s.handlerAt k := rfl

/-! `State.setMem`. -/

@[simp] theorem State.setMem_regs (s : State) (m : Memory) : (s.setMem m).regs = s.regs := rfl
@[simp] theorem State.setMem_halt (s : State) (m : Memory) : (s.setMem m).halt = s.halt := rfl
@[simp] theorem State.setMem_handlers (s : State) (m : Memory) : (s.setMem m).handlers = s.handlers := rfl
@[simp] theorem State.setMem_running (s : State) (m : Memory) : (s.setMem m).running = s.running := rfl
@[simp] theorem State.setMem_fault (s : State) (m : Memory) : (s.setMem m).fault = s.fault := rfl
@[simp] theorem State.setMem_mem (s : State) (m : Memory) : (s.setMem m).mem = m := rfl
@[simp] theorem State.setMem_params (s : State) (m : Memory) : (s.setMem m).params = s.params := rfl
@[simp] theorem State.setMem_draws (s : State) (m : Memory) : (s.setMem m).draws = s.draws := rfl
@[simp] theorem State.setMem_reg (s : State) (m : Memory) (q : Reg) : (s.setMem m).reg q = s.reg q := rfl
@[simp] theorem State.setMem_valid (s : State) (m : Memory) (a : Nat) : (s.setMem m).valid a = s.valid a := rfl
@[simp] theorem State.setMem_handlerAt (s : State) (m : Memory) (k : Byte) : (s.setMem m).handlerAt k = s.handlerAt k := rfl

/-! `State.setHalt`. -/

@[simp] theorem State.setHalt_regs (s : State) (on : Bool) : (s.setHalt on).regs = s.regs := rfl
@[simp] theorem State.setHalt_halt (s : State) (on : Bool) : (s.setHalt on).halt = on := rfl
@[simp] theorem State.setHalt_handlers (s : State) (on : Bool) : (s.setHalt on).handlers = s.handlers := rfl
@[simp] theorem State.setHalt_running (s : State) (on : Bool) : (s.setHalt on).running = s.running := rfl
@[simp] theorem State.setHalt_fault (s : State) (on : Bool) : (s.setHalt on).fault = s.fault := rfl
@[simp] theorem State.setHalt_mem (s : State) (on : Bool) : (s.setHalt on).mem = s.mem := rfl
@[simp] theorem State.setHalt_params (s : State) (on : Bool) : (s.setHalt on).params = s.params := rfl
@[simp] theorem State.setHalt_draws (s : State) (on : Bool) : (s.setHalt on).draws = s.draws := rfl
@[simp] theorem State.setHalt_reg (s : State) (on : Bool) (q : Reg) : (s.setHalt on).reg q = s.reg q := rfl
@[simp] theorem State.setHalt_readByte (s : State) (on : Bool) (a : Nat) : (s.setHalt on).readByte a = s.readByte a := rfl
@[simp] theorem State.setHalt_readWord (s : State) (on : Bool) (a : Nat) : (s.setHalt on).readWord a = s.readWord a := rfl
@[simp] theorem State.setHalt_valid (s : State) (on : Bool) (a : Nat) : (s.setHalt on).valid a = s.valid a := rfl
@[simp] theorem State.setHalt_handlerAt (s : State) (on : Bool) (k : Byte) : (s.setHalt on).handlerAt k = s.handlerAt k := rfl

/-! `State.setRunning`. -/

@[simp] theorem State.setRunning_regs (s : State) (h : Option HandlerId) : (s.setRunning h).regs = s.regs := rfl
@[simp] theorem State.setRunning_halt (s : State) (h : Option HandlerId) : (s.setRunning h).halt = s.halt := rfl
@[simp] theorem State.setRunning_handlers (s : State) (h : Option HandlerId) : (s.setRunning h).handlers = s.handlers := rfl
@[simp] theorem State.setRunning_running (s : State) (h : Option HandlerId) : (s.setRunning h).running = h := rfl
@[simp] theorem State.setRunning_fault (s : State) (h : Option HandlerId) : (s.setRunning h).fault = s.fault := rfl
@[simp] theorem State.setRunning_mem (s : State) (h : Option HandlerId) : (s.setRunning h).mem = s.mem := rfl
@[simp] theorem State.setRunning_params (s : State) (h : Option HandlerId) : (s.setRunning h).params = s.params := rfl
@[simp] theorem State.setRunning_draws (s : State) (h : Option HandlerId) : (s.setRunning h).draws = s.draws := rfl
@[simp] theorem State.setRunning_reg (s : State) (h : Option HandlerId) (q : Reg) : (s.setRunning h).reg q = s.reg q := rfl
@[simp] theorem State.setRunning_readByte (s : State) (h : Option HandlerId) (a : Nat) : (s.setRunning h).readByte a = s.readByte a := rfl
@[simp] theorem State.setRunning_readWord (s : State) (h : Option HandlerId) (a : Nat) : (s.setRunning h).readWord a = s.readWord a := rfl
@[simp] theorem State.setRunning_valid (s : State) (h : Option HandlerId) (a : Nat) : (s.setRunning h).valid a = s.valid a := rfl
@[simp] theorem State.setRunning_handlerAt (s : State) (h : Option HandlerId) (k : Byte) : (s.setRunning h).handlerAt k = s.handlerAt k := rfl

/-! `State.advanceDraws`. -/

@[simp] theorem State.advanceDraws_regs (s : State) : (s.advanceDraws).regs = s.regs := rfl
@[simp] theorem State.advanceDraws_halt (s : State) : (s.advanceDraws).halt = s.halt := rfl
@[simp] theorem State.advanceDraws_handlers (s : State) : (s.advanceDraws).handlers = s.handlers := rfl
@[simp] theorem State.advanceDraws_running (s : State) : (s.advanceDraws).running = s.running := rfl
@[simp] theorem State.advanceDraws_fault (s : State) : (s.advanceDraws).fault = s.fault := rfl
@[simp] theorem State.advanceDraws_mem (s : State) : (s.advanceDraws).mem = s.mem := rfl
@[simp] theorem State.advanceDraws_params (s : State) : (s.advanceDraws).params = s.params := rfl
@[simp] theorem State.advanceDraws_draws (s : State) : (s.advanceDraws).draws = s.draws + 1 := rfl
@[simp] theorem State.advanceDraws_reg (s : State) (q : Reg) : (s.advanceDraws).reg q = s.reg q := rfl
@[simp] theorem State.advanceDraws_readByte (s : State) (a : Nat) : (s.advanceDraws).readByte a = s.readByte a := rfl
@[simp] theorem State.advanceDraws_readWord (s : State) (a : Nat) : (s.advanceDraws).readWord a = s.readWord a := rfl
@[simp] theorem State.advanceDraws_valid (s : State) (a : Nat) : (s.advanceDraws).valid a = s.valid a := rfl
@[simp] theorem State.advanceDraws_handlerAt (s : State) (k : Byte) : (s.advanceDraws).handlerAt k = s.handlerAt k := rfl

/-! `State.latch`. -/

@[simp] theorem State.latch_regs (s : State) (r : FaultRecord) : (s.latch r).regs = s.regs := rfl
@[simp] theorem State.latch_halt (s : State) (r : FaultRecord) : (s.latch r).halt = s.halt := rfl
@[simp] theorem State.latch_handlers (s : State) (r : FaultRecord) : (s.latch r).handlers = s.handlers := rfl
@[simp] theorem State.latch_running (s : State) (r : FaultRecord) : (s.latch r).running = s.running := rfl
@[simp] theorem State.latch_fault (s : State) (r : FaultRecord) : (s.latch r).fault = some r := rfl
@[simp] theorem State.latch_mem (s : State) (r : FaultRecord) : (s.latch r).mem = s.mem := rfl
@[simp] theorem State.latch_params (s : State) (r : FaultRecord) : (s.latch r).params = s.params := rfl
@[simp] theorem State.latch_draws (s : State) (r : FaultRecord) : (s.latch r).draws = s.draws := rfl
@[simp] theorem State.latch_reg (s : State) (r : FaultRecord) (q : Reg) : (s.latch r).reg q = s.reg q := rfl
@[simp] theorem State.latch_readByte (s : State) (r : FaultRecord) (a : Nat) : (s.latch r).readByte a = s.readByte a := rfl
@[simp] theorem State.latch_readWord (s : State) (r : FaultRecord) (a : Nat) : (s.latch r).readWord a = s.readWord a := rfl
@[simp] theorem State.latch_valid (s : State) (r : FaultRecord) (a : Nat) : (s.latch r).valid a = s.valid a := rfl
@[simp] theorem State.latch_handlerAt (s : State) (r : FaultRecord) (k : Byte) : (s.latch r).handlerAt k = s.handlerAt k := rfl

/-! `State.defineHandler`. -/

@[simp] theorem State.defineHandler_regs (s : State) (c : Byte) (h : HandlerId) : (s.defineHandler c h).regs = s.regs := rfl
@[simp] theorem State.defineHandler_halt (s : State) (c : Byte) (h : HandlerId) : (s.defineHandler c h).halt = s.halt := rfl
@[simp] theorem State.defineHandler_handlers (s : State) (c : Byte) (h : HandlerId) : (s.defineHandler c h).handlers = tableDefine s.handlers c h := rfl
@[simp] theorem State.defineHandler_running (s : State) (c : Byte) (h : HandlerId) : (s.defineHandler c h).running = s.running := rfl
@[simp] theorem State.defineHandler_fault (s : State) (c : Byte) (h : HandlerId) : (s.defineHandler c h).fault = s.fault := rfl
@[simp] theorem State.defineHandler_mem (s : State) (c : Byte) (h : HandlerId) : (s.defineHandler c h).mem = s.mem := rfl
@[simp] theorem State.defineHandler_params (s : State) (c : Byte) (h : HandlerId) : (s.defineHandler c h).params = s.params := rfl
@[simp] theorem State.defineHandler_draws (s : State) (c : Byte) (h : HandlerId) : (s.defineHandler c h).draws = s.draws := rfl
@[simp] theorem State.defineHandler_reg (s : State) (c : Byte) (h : HandlerId) (q : Reg) : (s.defineHandler c h).reg q = s.reg q := rfl
@[simp] theorem State.defineHandler_readByte (s : State) (c : Byte) (h : HandlerId) (a : Nat) : (s.defineHandler c h).readByte a = s.readByte a := rfl
@[simp] theorem State.defineHandler_readWord (s : State) (c : Byte) (h : HandlerId) (a : Nat) : (s.defineHandler c h).readWord a = s.readWord a := rfl
@[simp] theorem State.defineHandler_valid (s : State) (c : Byte) (h : HandlerId) (a : Nat) : (s.defineHandler c h).valid a = s.valid a := rfl

/-! Registers. -/

theorem regGet_regSet (f : RegFile) (r q : Reg) (v : Word) :
    regGet (regSet f r v) q = if q = r then v else regGet f q := by
  cases r <;> cases q <;> rfl

@[simp] theorem regGet_regSet_same (f : RegFile) (r : Reg) (v : Word) : regGet (regSet f r v) r = v := by
  simp [regGet_regSet]

theorem State.setReg_reg (s : State) (r q : Reg) (v : Word) :
    (s.setReg r v).reg q = if q = r then v else s.reg q := regGet_regSet s.regs r q v

@[simp] theorem State.setReg_reg_same (s : State) (r : Reg) (v : Word) : (s.setReg r v).reg r = v :=
  regGet_regSet_same s.regs r v

theorem State.setReg_reg_other (s : State) (r q : Reg) (v : Word) (h : q ≠ r) :
    (s.setReg r v).reg q = s.reg q := by
  simp [State.setReg_reg, h]

theorem regSet_regSet_same (f : RegFile) (r : Reg) (u v : Word) : regSet (regSet f r u) r v = regSet f r v := by
  cases r <;> rfl

theorem regSet_comm (f : RegFile) (r q : Reg) (u v : Word) (h : r ≠ q) :
    regSet (regSet f r u) q v = regSet (regSet f q v) r u := by
  cases r <;> cases q <;> first | rfl | exact absurd rfl h

/-- Later writes of one register win. -/
@[simp] theorem State.setReg_setReg_same (s : State) (r : Reg) (u v : Word) :
    (s.setReg r u).setReg r v = s.setReg r v := by
  simp [State.setReg, regSet_regSet_same]

/-- Writes of two registers commute. -/
theorem State.setReg_comm (s : State) (r q : Reg) (u v : Word) (h : r ≠ q) :
    (s.setReg r u).setReg q v = (s.setReg q v).setReg r u := by
  simp [State.setReg, regSet_comm _ _ _ _ _ h]

/-! Fetch and the PC advance. -/

@[simp] theorem State.advancePc_pc (s : State) : s.advancePc.reg .pc = s.reg .pc + 2 := rfl

theorem State.advancePc_other (s : State) (q : Reg) (h : q ≠ .pc) : s.advancePc.reg q = s.reg q :=
  State.setReg_reg_other s .pc q _ h

@[simp] theorem State.advancePc_halt (s : State) : s.advancePc.halt = s.halt := rfl
@[simp] theorem State.advancePc_handlers (s : State) : s.advancePc.handlers = s.handlers := rfl
@[simp] theorem State.advancePc_running (s : State) : s.advancePc.running = s.running := rfl
@[simp] theorem State.advancePc_fault (s : State) : s.advancePc.fault = s.fault := rfl
@[simp] theorem State.advancePc_mem (s : State) : s.advancePc.mem = s.mem := rfl
@[simp] theorem State.advancePc_params (s : State) : s.advancePc.params = s.params := rfl
@[simp] theorem State.advancePc_draws (s : State) : s.advancePc.draws = s.draws := rfl
@[simp] theorem State.advancePc_readWord (s : State) (a : Nat) : s.advancePc.readWord a = s.readWord a := rfl

/-! Taking a fault changes the fault status alone. -/

@[simp] theorem State.raise_regs (s : State) (c : Cause) (i : Word) : (s.raise c i).regs = s.regs := rfl
@[simp] theorem State.raise_halt (s : State) (c : Cause) (i : Word) : (s.raise c i).halt = s.halt := rfl
@[simp] theorem State.raise_handlers (s : State) (c : Cause) (i : Word) : (s.raise c i).handlers = s.handlers := rfl
@[simp] theorem State.raise_running (s : State) (c : Cause) (i : Word) : (s.raise c i).running = s.running := rfl
@[simp] theorem State.raise_fault (s : State) (c : Cause) (i : Word) : (s.raise c i).fault = some (s.faultRecord c i) := rfl
@[simp] theorem State.raise_mem (s : State) (c : Cause) (i : Word) : (s.raise c i).mem = s.mem := rfl
@[simp] theorem State.raise_params (s : State) (c : Cause) (i : Word) : (s.raise c i).params = s.params := rfl
@[simp] theorem State.raise_draws (s : State) (c : Cause) (i : Word) : (s.raise c i).draws = s.draws := rfl

/-- After the PC advance, a record made names the address the instruction was fetched from and the word fetched. -/
theorem State.advancePc_faultRecord (s : State) (c : Cause) (i : Word) :
    s.advancePc.faultRecord c i = ⟨c, s.reg .pc, s.fetch, i⟩ := by
  simp [State.faultRecord, State.fetch]

end Sys2Proof.Machine
end

