-- ==== Sys2Proof/Laws/Word.lean ====
section
/-! SUPPORT. The two halves of a word, and the register indices. -/

namespace Sys2Proof

@[simp] theorem lowByte_joinBytes (lo hi : Byte) : lowByte (joinBytes lo hi) = lo := by
  apply BitVec.eq_of_toNat_eq
  have h := lo.isLt
  simp only [lowByte, joinBytes, BitVec.extractLsb'_toNat, BitVec.toNat_append, Nat.shiftRight_zero]
  rw [Nat.shiftLeft_eq, Nat.mul_comm, ← Nat.two_pow_add_eq_or_of_lt h]
  omega

@[simp] theorem highByte_joinBytes (lo hi : Byte) : highByte (joinBytes lo hi) = hi := by
  apply BitVec.eq_of_toNat_eq
  have h := lo.isLt
  have h' := hi.isLt
  simp only [highByte, joinBytes, BitVec.extractLsb'_toNat, BitVec.toNat_append]
  rw [Nat.shiftLeft_eq, Nat.mul_comm, ← Nat.two_pow_add_eq_or_of_lt h, Nat.shiftRight_eq_div_pow]
  omega

theorem lowByte_toNat (w : Word) : (lowByte w).toNat = w.toNat % 256 := by
  simp [lowByte, BitVec.extractLsb'_toNat]

theorem highByte_toNat (w : Word) : (highByte w).toNat = w.toNat / 256 := by
  have h := w.isLt
  simp only [highByte, BitVec.extractLsb'_toNat, Nat.shiftRight_eq_div_pow]
  omega

theorem joinBytes_toNat (lo hi : Byte) : (joinBytes lo hi).toNat = hi.toNat * 256 + lo.toNat := by
  have h := lo.isLt
  simp only [joinBytes, BitVec.toNat_append]
  rw [Nat.shiftLeft_eq, Nat.mul_comm, ← Nat.two_pow_add_eq_or_of_lt h, Nat.mul_comm]

@[simp] theorem joinBytes_low_high (w : Word) : joinBytes (lowByte w) (highByte w) = w := by
  apply BitVec.eq_of_toNat_eq
  rw [joinBytes_toNat, lowByte_toNat, highByte_toNat]
  omega

/-- A word is its low byte, or-ed with its high byte 8 bits up: R53's formula. -/
theorem joinBytes_eq_or (lo hi : Byte) : joinBytes lo hi = zext16 lo ||| (zext16 hi <<< 8) := by
  apply BitVec.eq_of_toNat_eq
  have hl := lo.isLt
  have hh := hi.isLt
  have e := Nat.two_pow_add_eq_or_of_lt hl hi.toNat
  simp only [joinBytes_toNat, zext16, BitVec.toNat_or, BitVec.toNat_shiftLeft, BitVec.toNat_setWidth,
    Nat.shiftLeft_eq]
  rw [Nat.mod_eq_of_lt (a := lo.toNat) (by omega), Nat.mod_eq_of_lt (a := hi.toNat) (by omega),
    Nat.mod_eq_of_lt (by omega), Nat.or_comm, Nat.mul_comm, ← e, Nat.mul_comm]

/-! The stack pointer's arithmetic wraps, so steps of two add up. -/

theorem sub_two_sub_two (w : Word) : w - 2 - 2 = w - 4 := by
  bv_omega

theorem sub_four_add_two (w : Word) : w - 4 + 2 = w - 2 := by
  bv_omega

@[simp] theorem regOfIndex_regIndex (r : Reg) : regOfIndex (regIndex r) = some r := by
  cases r <;> rfl

theorem regIndex_lt (r : Reg) : regIndex r < 8 := by
  cases r <;> decide

/-- The register a field names has that field's value as its index. -/
theorem regIndex_of_regOfIndex {n : Nat} {r : Reg} (h : regOfIndex n = some r) : regIndex r = n := by
  unfold regOfIndex at h
  split at h <;> cases h <;> rfl

/-- A field names a register exactly when it is below 8. -/
theorem regOfIndex_isSome (n : Nat) : (regOfIndex n).isSome = decide (n < 8) := by
  unfold regOfIndex
  split <;> simp_all
  omega

end Sys2Proof
end

