-- ==== Sys2Proof/Laws/Memory.lean ====
section
/-! SUPPORT. Memory and the handler table as data: read after write, frames, and the canonical forms. -/

namespace Sys2Proof.Machine

/-! Bytes. -/

/-- In a canonical memory whose addresses all lie above `a`, address `a` reads as blank. -/
theorem memLookup_of_all_gt (m : Memory) (a : Nat) (h : ∀ c ∈ m, a < c.1) : memLookup m a = blankByte := by
  induction m with
  | nil => rfl
  | cons c rest ih =>
    obtain ⟨k, b⟩ := c
    have hk : a < k := h (k, b) (by simp)
    simp only [memLookup]
    rw [if_neg (by omega)]
    exact ih fun c hc => h c (by simp [hc])

theorem Memory.wf_cons {k : Nat} {b : Byte} {rest : Memory} (h : Memory.wf ((k, b) :: rest) = true) :
    b ≠ blankByte ∧ (∀ c ∈ rest, k < c.1) ∧ Memory.wf rest = true := by
  simp only [Memory.wf, Bool.and_eq_true, bne_iff_ne, ne_eq, List.all_eq_true, decide_eq_true_eq] at h
  exact ⟨h.1.1, h.1.2, h.2⟩

theorem Memory.wf_cons_intro {k : Nat} {b : Byte} {rest : Memory} (hb : b ≠ blankByte)
    (hk : ∀ c ∈ rest, k < c.1) (hw : Memory.wf rest = true) : Memory.wf ((k, b) :: rest) = true := by
  simp only [Memory.wf, Bool.and_eq_true, bne_iff_ne, ne_eq, List.all_eq_true, decide_eq_true_eq]
  exact ⟨⟨hb, hk⟩, hw⟩

/-- A byte written is read back. -/
theorem memLookup_memStore_same (m : Memory) (a : Nat) (v : Byte) (hw : Memory.wf m = true) :
    memLookup (memStore m a v) a = v := by
  induction m with
  | nil => by_cases hv : v = blankByte <;> simp [memStore, memLookup, hv]
  | cons c rest ih =>
    obtain ⟨k, b⟩ := c
    obtain ⟨_, hk, hr⟩ := Memory.wf_cons hw
    simp only [memStore]
    split
    · split
      · rename_i hlt hv
        rw [hv]
        refine memLookup_of_all_gt _ _ fun c hc => ?_
        rcases List.mem_cons.1 hc with rfl | hc
        · exact hlt
        · exact Nat.lt_trans hlt (hk c hc)
      · simp [memLookup]
    · split
      · rename_i heq
        subst heq
        split
        · rename_i hv
          rw [hv]
          exact memLookup_of_all_gt _ _ hk
        · simp [memLookup]
      · rename_i hne
        simp only [memLookup]
        rw [if_neg (by omega)]
        exact ih hr

/-- A byte written leaves every other address alone. -/
theorem memLookup_memStore_other (m : Memory) (a b : Nat) (v : Byte) (h : b ≠ a) :
    memLookup (memStore m a v) b = memLookup m b := by
  induction m with
  | nil => by_cases hv : v = blankByte <;> simp [memStore, memLookup, hv, Ne.symm h]
  | cons c rest ih =>
    obtain ⟨k, u⟩ := c
    simp only [memStore]
    split
    · split
      · rfl
      · simp [memLookup, Ne.symm h]
    · split
      · rename_i heq
        subst heq
        split <;> simp [memLookup, Ne.symm h]
      · simp only [memLookup, ih]

/-- An address listed after a write was listed before it or is the address written. -/
theorem mem_memStore {m : Memory} {a : Nat} {v : Byte} {c : Host.Cell} (h : c ∈ memStore m a v) :
    c = (a, v) ∨ c ∈ m := by
  induction m with
  | nil => by_cases hv : v = blankByte <;> simp_all [memStore]
  | cons d rest ih =>
    obtain ⟨k, u⟩ := d
    simp only [memStore] at h
    split at h
    · split at h
      · exact .inr h
      · simpa using h
    · split at h
      · split at h
        · exact .inr (by simp [h])
        · rcases List.mem_cons.1 h with h | h
          · exact .inl h
          · exact .inr (by simp [h])
      · rcases List.mem_cons.1 h with h | h
        · exact .inr (by simp [h])
        · rcases ih h with h | h
          · exact .inl h
          · exact .inr (by simp [h])

/-- A write keeps the canonical form. -/
theorem memStore_wf (m : Memory) (a : Nat) (v : Byte) (hw : Memory.wf m = true) :
    Memory.wf (memStore m a v) = true := by
  induction m with
  | nil => by_cases hv : v = blankByte <;> simp [memStore, Memory.wf, hv]
  | cons c rest ih =>
    obtain ⟨k, b⟩ := c
    obtain ⟨hb, hk, hr⟩ := Memory.wf_cons hw
    simp only [memStore]
    split
    · rename_i hlt
      split
      · exact hw
      · rename_i hv
        refine Memory.wf_cons_intro hv (fun c hc => ?_) hw
        rcases List.mem_cons.1 hc with rfl | hc
        · exact hlt
        · exact Nat.lt_trans hlt (hk c hc)
    · rename_i hge
      split
      · rename_i heq
        subst heq
        split
        · exact hr
        · rename_i hv
          exact Memory.wf_cons_intro hv hk hr
      · rename_i hne
        refine Memory.wf_cons_intro hb (fun c hc => ?_) (ih hr)
        rcases mem_memStore hc with rfl | hc
        · simp only
          omega
        · exact hk c hc

/-- Two canonical memories that read the same everywhere are the same data. -/
theorem Memory.ext_of_lookup (m n : Memory) (hm : Memory.wf m = true) (hn : Memory.wf n = true)
    (h : ∀ a, memLookup m a = memLookup n a) : m = n := by
  induction m generalizing n with
  | nil =>
    cases n with
    | nil => rfl
    | cons c rest =>
      obtain ⟨k, b⟩ := c
      have := h k
      simp only [memLookup, if_true] at this
      exact absurd this.symm (Memory.wf_cons hn).1
  | cons c rest ih =>
    obtain ⟨k, b⟩ := c
    obtain ⟨hb, hk, hr⟩ := Memory.wf_cons hm
    cases n with
    | nil =>
      have := h k
      simp only [memLookup, if_true] at this
      exact absurd this hb
    | cons d rest' =>
      obtain ⟨k', b'⟩ := d
      obtain ⟨hb', hk', hr'⟩ := Memory.wf_cons hn
      rcases Nat.lt_trichotomy k k' with hlt | heq | hgt
      · have := h k
        rw [memLookup_of_all_gt ((k', b') :: rest') k (fun c hc => by
          rcases List.mem_cons.1 hc with rfl | hc
          · exact hlt
          · exact Nat.lt_trans hlt (hk' c hc))] at this
        simp only [memLookup, if_true] at this
        exact absurd this hb
      · subst heq
        have hbb := h k
        simp only [memLookup, if_true] at hbb
        subst hbb
        congr 1
        refine ih rest' hr hr' fun a => ?_
        by_cases ha : k = a
        · subst ha
          rw [memLookup_of_all_gt rest k hk, memLookup_of_all_gt rest' k hk']
        · have := h a
          simpa [memLookup, ha] using this
      · have := h k'
        rw [memLookup_of_all_gt ((k, b) :: rest) k' (fun c hc => by
          rcases List.mem_cons.1 hc with rfl | hc
          · exact hgt
          · exact Nat.lt_trans hgt (hk c hc))] at this
        simp only [memLookup, if_true] at this
        exact absurd this.symm hb'

/-! The handler table. -/

theorem HandlerTable.wf_cons {k : Byte} {g : HandlerId} {rest : HandlerTable}
    (h : HandlerTable.wf ((k, g) :: rest) = true) :
    (∀ e ∈ rest, k.toNat < e.1.toNat) ∧ HandlerTable.wf rest = true := by
  simpa [HandlerTable.wf, List.all_eq_true] using h

/-- An entry listed after a registration was listed before it or is the one registered. -/
theorem mem_tableDefine {t : HandlerTable} {c : Byte} {h : HandlerId} {e : Byte × HandlerId}
    (he : e ∈ tableDefine t c h) : e = (c, h) ∨ e ∈ t := by
  induction t with
  | nil => simpa [tableDefine] using he
  | cons d rest ih =>
    obtain ⟨k, g⟩ := d
    simp only [tableDefine] at he
    split at he
    · simpa using he
    · split at he
      · rcases List.mem_cons.1 he with he | he
        · exact .inl he
        · exact .inr (by simp [he])
      · rcases List.mem_cons.1 he with he | he
        · exact .inr (by simp [he])
        · rcases ih he with he | he
          · exact .inl he
          · exact .inr (by simp [he])

/-- A registration keeps the canonical form. -/
theorem tableDefine_wf (t : HandlerTable) (c : Byte) (h : HandlerId) (hw : HandlerTable.wf t = true) :
    HandlerTable.wf (tableDefine t c h) = true := by
  induction t with
  | nil => rfl
  | cons d rest ih =>
    obtain ⟨k, g⟩ := d
    obtain ⟨hk, hr⟩ := HandlerTable.wf_cons hw
    simp only [tableDefine]
    split
    · rename_i hlt
      simp only [HandlerTable.wf, Bool.and_eq_true, List.all_eq_true, decide_eq_true_eq]
      refine ⟨fun e he => ?_, hk, hr⟩
      rcases List.mem_cons.1 he with rfl | he
      · exact hlt
      · exact Nat.lt_trans hlt (hk e he)
    · split
      · rename_i heq
        subst heq
        simp only [HandlerTable.wf, Bool.and_eq_true, List.all_eq_true, decide_eq_true_eq]
        exact ⟨hk, hr⟩
      · rename_i hge hne
        have hkc : k.toNat < c.toNat := by
          have : c.toNat ≠ k.toNat := fun e => hne (BitVec.eq_of_toNat_eq e)
          omega
        simp only [HandlerTable.wf, Bool.and_eq_true, List.all_eq_true, decide_eq_true_eq]
        refine ⟨fun e he => ?_, ih hr⟩
        rcases mem_tableDefine he with rfl | he
        · exact hkc
        · exact hk e he

/-- A code registered has that handler. -/
@[simp] theorem tableLookup_tableDefine_same (t : HandlerTable) (c : Byte) (h : HandlerId) :
    tableLookup (tableDefine t c h) c = some h := by
  induction t with
  | nil => simp [tableDefine, tableLookup]
  | cons d rest ih =>
    obtain ⟨k, g⟩ := d
    simp only [tableDefine]
    split
    · simp [tableLookup]
    · split
      · simp [tableLookup]
      · rename_i hne
        simp [tableLookup, Ne.symm hne, ih]

/-- A registration leaves every other code alone. -/
theorem tableLookup_tableDefine_other (t : HandlerTable) (c d : Byte) (h : HandlerId) (hd : d ≠ c) :
    tableLookup (tableDefine t c h) d = tableLookup t d := by
  induction t with
  | nil => simp [tableDefine, tableLookup, Ne.symm hd]
  | cons e rest ih =>
    obtain ⟨k, g⟩ := e
    simp only [tableDefine]
    split
    · simp [tableLookup, Ne.symm hd]
    · split
      · rename_i heq
        subst heq
        simp [tableLookup, Ne.symm hd]
      · simp only [tableLookup, ih]

end Sys2Proof.Machine
end

