-- ==== Sys2Proof/Laws/Access.lean ====
section
/-! SUPPORT. The access primitives on State (20_memory.md R54 to R57, R65): what each can do, said once. -/

namespace Sys2Proof.Machine

@[simp] theorem State.valid_iff (s : State) (a : Nat) : s.valid a = true ↔ a < s.params.memSize.val := by
  simp [State.valid]

/-! Reads. -/

/-- A byte read succeeds exactly below MEM_SIZE. -/
theorem State.readByte_of_lt (s : State) (a : Nat) (h : a < s.params.memSize.val) :
    s.readByte a = some (memLookup s.mem a) := by
  simp [State.readByte, h]

theorem State.readByte_of_ge (s : State) (a : Nat) (h : s.params.memSize.val ≤ a) : s.readByte a = none := by
  simp [State.readByte, h]

/-- A word read succeeds exactly when both bytes exist. -/
theorem State.readWord_of_lt (s : State) (a : Nat) (h : a + 1 < s.params.memSize.val) :
    s.readWord a = some (joinBytes (memLookup s.mem a) (memLookup s.mem (a + 1))) := by
  simp [State.readWord, h, Nat.lt_of_succ_lt h]

theorem State.readWord_of_ge (s : State) (a : Nat) (h : s.params.memSize.val ≤ a + 1) : s.readWord a = none := by
  simp [State.readWord, h]

theorem State.readWord_some {s : State} {a : Nat} {w : Word} (h : s.readWord a = some w) :
    a + 1 < s.params.memSize.val ∧ w = joinBytes (memLookup s.mem a) (memLookup s.mem (a + 1)) := by
  by_cases hv : a + 1 < s.params.memSize.val
  · rw [s.readWord_of_lt a hv] at h
    exact ⟨hv, (Option.some.inj h).symm⟩
  · rw [s.readWord_of_ge a (by omega)] at h
    cases h

/-- Two bytes that read make the word that reads, low byte first. -/
theorem State.readWord_of_bytes {s : State} {a : Nat} {b0 b1 : Byte} (h0 : s.readByte a = some b0)
    (h1 : s.readByte (a + 1) = some b1) : s.readWord a = some (joinBytes b0 b1) := by
  unfold State.readByte at h0 h1
  split at h0
  · split at h1
    · cases h0
      cases h1
      simp [State.readWord, *]
    · cases h1
  · cases h0

/-- States whose bytes and sizes agree read the same words. -/
theorem State.readWord_congr {s t : State} {a : Nat} (hp : t.params = s.params)
    (h0 : memLookup t.mem a = memLookup s.mem a) (h1 : memLookup t.mem (a + 1) = memLookup s.mem (a + 1)) :
    t.readWord a = s.readWord a := by
  simp [State.readWord, State.valid, hp, h0, h1]

/-- States of one size whose bytes all read alike read the same words. -/
theorem State.readWord_of_same_bytes {s t : State} (hp : t.params = s.params)
    (h : ∀ a, t.readByte a = s.readByte a) (a : Nat) : t.readWord a = s.readWord a := by
  rcases Nat.lt_or_ge (a + 1) s.params.memSize.val with hlt | hge
  · have h0 := h a
    have h1 := h (a + 1)
    rw [State.readByte_of_lt t _ (by rw [hp]; omega), State.readByte_of_lt s _ (by omega)] at h0
    rw [State.readByte_of_lt t _ (by rw [hp]; exact hlt), State.readByte_of_lt s _ hlt] at h1
    exact State.readWord_congr hp (Option.some.inj h0) (Option.some.inj h1)
  · rw [State.readWord_of_ge t a (by rw [hp]; exact hge), State.readWord_of_ge s a hge]

/-! Writes: three cases for a word. -/

theorem State.writeByte_of_lt (s : State) (a : Nat) (v : Byte) (h : a < s.params.memSize.val) :
    s.writeByte a v = .ok (s.setMem (memStore s.mem a v)) := by
  simp [State.writeByte, h]

theorem State.writeByte_of_ge (s : State) (a : Nat) (v : Byte) (h : s.params.memSize.val ≤ a) :
    s.writeByte a v = .fail s := by
  simp [State.writeByte, h]

/-- The memory a word write leaves. -/
def storeWord (m : Memory) (a : Nat) (v : Word) : Memory :=
  memStore (memStore m a (lowByte v)) (a + 1) (highByte v)

theorem State.writeWord_of_lt (s : State) (a : Nat) (v : Word) (h : a + 1 < s.params.memSize.val) :
    s.writeWord a v = .ok (s.setMem (storeWord s.mem a v)) := by
  simp [State.writeWord, storeWord, h, Nat.lt_of_succ_lt h]

theorem State.writeWord_of_ge (s : State) (a : Nat) (v : Word) (h : s.params.memSize.val ≤ a) :
    s.writeWord a v = .fail s := by
  have : ¬ a < s.params.memSize.val := by omega
  simp [State.writeWord, this]

theorem State.writeWord_of_eq (s : State) (a : Nat) (v : Word) (h : a + 1 = s.params.memSize.val) :
    s.writeWord a v =
      .fail ((if Config.lowByteLands s.draws then s.setMem (memStore s.mem a (lowByte v)) else s).advanceDraws) := by
  have h0 : a < s.params.memSize.val := by omega
  have h1 : ¬ a + 1 < s.params.memSize.val := by omega
  simp only [State.writeWord, State.valid, h0, h1, decide_true, decide_false, Bool.and_false, if_true]
  rfl

/-- A word stored reads back, whatever the memory was. -/
theorem readWord_storeWord (s : State) (a : Nat) (v : Word) (hw : Memory.wf s.mem = true)
    (h : a + 1 < s.params.memSize.val) : (s.setMem (storeWord s.mem a v)).readWord a = some v := by
  rw [State.readWord_of_lt (s.setMem (storeWord s.mem a v)) a h]
  simp only [State.setMem_mem, storeWord]
  rw [memLookup_memStore_same _ _ _ (memStore_wf _ _ _ hw), memLookup_memStore_other _ _ _ _ (by omega),
    memLookup_memStore_same _ _ _ hw, joinBytes_low_high]

theorem memLookup_storeWord_other (m : Memory) (a b : Nat) (v : Word) (h0 : b ≠ a) (h1 : b ≠ a + 1) :
    memLookup (storeWord m a v) b = memLookup m b := by
  rw [storeWord, memLookup_memStore_other _ _ _ _ h1, memLookup_memStore_other _ _ _ _ h0]

/-! The copy (R65). -/

/-- What one more byte of a copy takes: its read and its write succeed, and the rest is copied from the memory they left. -/
theorem State.copyBytes_succ_ok {src dst len : Nat} {s t : State} (h : State.copyBytes src dst (len + 1) s = .ok t) :
    src < s.params.memSize.val ∧ dst < s.params.memSize.val ∧
      State.copyBytes (src + 1) (dst + 1) len (s.setMem (memStore s.mem dst (memLookup s.mem src))) = .ok t := by
  by_cases hs : src < s.params.memSize.val
  · by_cases hd : dst < s.params.memSize.val
    · simp only [State.copyBytes, s.readByte_of_lt src hs, s.writeByte_of_lt dst _ hd] at h
      exact ⟨hs, hd, h⟩
    · simp only [State.copyBytes, s.readByte_of_lt src hs, s.writeByte_of_ge dst _ (Nat.le_of_not_lt hd)] at h
      cases h
  · simp only [State.copyBytes, s.readByte_of_ge src (Nat.le_of_not_lt hs)] at h
    cases h

/-- A copy that succeeds changes memory alone, and in it only the target range. -/
theorem State.copyBytes_ok_cases {src dst len : Nat} {s t : State} (h : State.copyBytes src dst len s = .ok t) :
    t = s.setMem t.mem ∧ ∀ a, a < dst ∨ dst + len ≤ a → memLookup t.mem a = memLookup s.mem a := by
  induction len generalizing src dst s with
  | zero =>
    cases h
    exact ⟨rfl, fun _ _ => rfl⟩
  | succ len ih =>
    obtain ⟨_, _, h⟩ := State.copyBytes_succ_ok h
    obtain ⟨e, o⟩ := ih h
    refine ⟨e, fun a ha => ?_⟩
    rw [o a (by omega)]
    exact memLookup_memStore_other _ _ _ _ (by omega)

/-! What a memory operation can change: memory and the draw counter, keeping memory in form. -/

/-- From `s` to `t` only memory and the draw counter may differ, and memory keeps its form and stays inside. -/
structure MemStep (s t : State) : Prop where
  regs : t.regs = s.regs
  halt : t.halt = s.halt
  handlers : t.handlers = s.handlers
  running : t.running = s.running
  fault : t.fault = s.fault
  params : t.params = s.params
  canonical : Memory.wf s.mem = true → Memory.wf t.mem = true
  inside : (∀ c ∈ s.mem, c.1 < s.params.memSize.val) → ∀ c ∈ t.mem, c.1 < s.params.memSize.val

theorem MemStep.refl (s : State) : MemStep s s := ⟨rfl, rfl, rfl, rfl, rfl, rfl, id, id⟩

theorem MemStep.trans {s t u : State} (h : MemStep s t) (k : MemStep t u) : MemStep s u where
  regs := k.regs.trans h.regs
  halt := k.halt.trans h.halt
  handlers := k.handlers.trans h.handlers
  running := k.running.trans h.running
  fault := k.fault.trans h.fault
  params := k.params.trans h.params
  canonical := fun w => k.canonical (h.canonical w)
  inside := fun i => by
    have := k.inside (by rw [h.params]; exact h.inside i)
    rwa [h.params] at this

theorem memStep_store (s : State) (a : Nat) (v : Byte) (h : a < s.params.memSize.val) :
    MemStep s (s.setMem (memStore s.mem a v)) where
  regs := rfl
  halt := rfl
  handlers := rfl
  running := rfl
  fault := rfl
  params := rfl
  canonical := memStore_wf _ _ _
  inside := fun i c hc => by
    rcases mem_memStore hc with rfl | hc
    · exact h
    · exact i c hc

theorem memStep_advanceDraws (s : State) : MemStep s s.advanceDraws := ⟨rfl, rfl, rfl, rfl, rfl, rfl, id, id⟩

theorem memStep_writeByte (s : State) (a : Nat) (v : Byte) : MemStep s (s.writeByte a v).state := by
  by_cases h : a < s.params.memSize.val
  · rw [s.writeByte_of_lt a v h]
    exact memStep_store s a v h
  · rw [s.writeByte_of_ge a v (by omega)]
    exact MemStep.refl s

theorem memStep_storeWord (s : State) (a : Nat) (v : Word) (h : a + 1 < s.params.memSize.val) :
    MemStep s (s.setMem (storeWord s.mem a v)) :=
  (memStep_store s a (lowByte v) (by omega)).trans
    (memStep_store (s.setMem (memStore s.mem a (lowByte v))) (a + 1) (highByte v) h)

theorem memStep_writeWord (s : State) (a : Nat) (v : Word) : MemStep s (s.writeWord a v).state := by
  rcases Nat.lt_trichotomy (a + 1) s.params.memSize.val with h | h | h
  · rw [s.writeWord_of_lt a v h]
    exact memStep_storeWord s a v h
  · rw [s.writeWord_of_eq a v h]
    refine MemStep.trans ?_ (memStep_advanceDraws _)
    split
    · exact memStep_store s a (lowByte v) (by omega)
    · exact MemStep.refl s
  · rw [s.writeWord_of_ge a v (by omega)]
    exact MemStep.refl s

theorem memStep_copyBytes (src dst len : Nat) (s : State) : MemStep s (State.copyBytes src dst len s).state := by
  induction len generalizing src dst s with
  | zero => exact MemStep.refl s
  | succ len ih =>
    simp only [State.copyBytes]
    split
    · exact MemStep.refl s
    · rename_i b _
      have hw := memStep_writeByte s dst b
      split
      · rename_i t ht
        rwa [ht] at hw
      · rename_i t ht
        rw [ht] at hw
        exact hw.trans (ih _ _ t)

end Sys2Proof.Machine
end

