-- ==== Sys2Proof/Laws/Signal.lean ====
section
/-! SUPPORT. What a handler can change (43_signal.md R161 to R163). -/

namespace Sys2Proof.Machine

/-- From `s` to `t` a handler may have run: parameters and fault status are as before, every data form is kept, and no
handler-table entry has become empty. -/
structure HostStep (s t : State) : Prop where
  fault : t.fault = s.fault
  params : t.params = s.params
  canonical : Memory.wf s.mem = true → Memory.wf t.mem = true
  inside : (∀ c ∈ s.mem, c.1 < s.params.memSize.val) → ∀ c ∈ t.mem, c.1 < s.params.memSize.val
  table : HandlerTable.wf s.handlers = true → HandlerTable.wf t.handlers = true
  entries : ∀ code, (s.handlerAt code).isSome = true → (t.handlerAt code).isSome = true

theorem HostStep.refl (s : State) : HostStep s s := ⟨rfl, rfl, id, id, id, fun _ => id⟩

theorem HostStep.trans {s t u : State} (h : HostStep s t) (k : HostStep t u) : HostStep s u where
  fault := k.fault.trans h.fault
  params := k.params.trans h.params
  canonical := fun w => k.canonical (h.canonical w)
  inside := fun i => by
    have := k.inside (by rw [h.params]; exact h.inside i)
    rwa [h.params] at this
  table := fun w => k.table (h.table w)
  entries := fun c e => k.entries c (h.entries c e)

theorem MemStep.toHostStep {s t : State} (h : MemStep s t) : HostStep s t where
  fault := h.fault
  params := h.params
  canonical := h.canonical
  inside := h.inside
  table := fun w => by rw [h.handlers]; exact w
  entries := fun c e => by simpa [State.handlerAt, h.handlers] using e

theorem hostStep_runAct (act : HostAct) (s : State) : HostStep s (runAct act s) := by
  cases act with
  | setReg r v => exact ⟨rfl, rfl, id, id, id, fun _ => id⟩
  | copyReg dst src => exact ⟨rfl, rfl, id, id, id, fun _ => id⟩
  | writeByte a v => exact (memStep_writeByte s a.toNat v).toHostStep
  | writeWord a v => exact (memStep_writeWord s a.toNat v).toHostStep
  | copy src dst len => exact (memStep_copyBytes src.toNat dst.toNat len s).toHostStep
  | setHalt on => exact ⟨rfl, rfl, id, id, id, fun _ => id⟩
  | define code h =>
    refine ⟨rfl, rfl, id, id, tableDefine_wf _ _ _, fun c e => ?_⟩
    by_cases hc : c = code
    · subst hc
      simp [runAct, State.handlerAt]
    · simpa [runAct, State.handlerAt, tableLookup_tableDefine_other _ _ _ _ hc] using e

theorem hostStep_runActs (acts : List HostAct) (s : State) : HostStep s (runActs acts s) := by
  induction acts generalizing s with
  | nil => exact HostStep.refl s
  | cons act rest ih => exact (hostStep_runAct act s).trans (ih _)

/-- Running two lists of writes in a row is running their concatenation. -/
theorem runActs_append (xs ys : List HostAct) (s : State) : runActs (xs ++ ys) s = runActs ys (runActs xs s) := by
  induction xs generalizing s with
  | nil => rfl
  | cons x rest ih => exact ih _

/-- A handler's writes leave the identity of the running handler alone (10_state.md R32). -/
@[simp] theorem runAct_running (act : HostAct) (s : State) : (runAct act s).running = s.running := by
  cases act with
  | setReg r v => rfl
  | copyReg dst src => rfl
  | writeByte a v => exact (memStep_writeByte s a.toNat v).running
  | writeWord a v => exact (memStep_writeWord s a.toNat v).running
  | copy src dst len => exact (memStep_copyBytes src.toNat dst.toNat len s).running
  | setHalt on => rfl
  | define code h => rfl

@[simp] theorem runActs_running (acts : List HostAct) (s : State) : (runActs acts s).running = s.running := by
  induction acts generalizing s with
  | nil => rfl
  | cons act rest ih => exact (ih _).trans (runAct_running act s)

/-- A write that does not define a code leaves that code's entry alone (10_state.md R30). -/
theorem runAct_handlerAt {act : HostAct} {code : Byte} (hd : ∀ h, act ≠ .define code h) (s : State) :
    (runAct act s).handlerAt code = s.handlerAt code := by
  cases act with
  | setReg r v => rfl
  | copyReg dst src => rfl
  | writeByte a v => simp [runAct, State.handlerAt, (memStep_writeByte s a.toNat v).handlers]
  | writeWord a v => simp [runAct, State.handlerAt, (memStep_writeWord s a.toNat v).handlers]
  | copy src dst len => simp [runAct, State.handlerAt, (memStep_copyBytes src.toNat dst.toNat len s).handlers]
  | setHalt on => rfl
  | define c h =>
    have hc : code ≠ c := fun e => hd h (by rw [e])
    simp [runAct, State.handlerAt, tableLookup_tableDefine_other _ _ _ _ hc]

theorem runActs_handlerAt {acts : List HostAct} {code : Byte} (hd : ∀ h, HostAct.define code h ∉ acts) (s : State) :
    (runActs acts s).handlerAt code = s.handlerAt code := by
  induction acts generalizing s with
  | nil => rfl
  | cons act rest ih =>
    exact (ih (fun h hm => hd h (List.mem_cons_of_mem _ hm)) _).trans
      (runAct_handlerAt (fun h e => hd h (by simp [e])) s)

/-- Trap entry notes the running handler and may use a draw; everything else is handed over as it stands. -/
theorem enterTrap_cases (h : HandlerId) (s : State) :
    enterTrap h s = s.setRunning (some h) ∨ enterTrap h s = (s.setRunning (some h)).advanceDraws := by
  unfold enterTrap
  split
  · exact .inl rfl
  · exact .inr rfl

/-- A trap whose handler returns leaves what the handler's writes left. -/
theorem trap_returns {h : HandlerId} {s : State} (he : (handlerBehaviour h s).ending = .returns) (code : Byte) :
    trap code h s = .next (leaveTrap (runActs (handlerBehaviour h s).acts (enterTrap h s))) := by
  simp [trap, he]

/-- A handler that was given a script does that script. -/
theorem trap_script {h : HandlerId} {s : State} {b : Behaviour} (hb : s.params.handlerScripts[h]? = some b)
    (code : Byte) (he : b.ending = .returns) :
    trap code h s = .next (leaveTrap (runActs b.acts (s.setRunning (some h)))) := by
  simp [trap, handlerBehaviour, enterTrap, hb, he]

theorem hostStep_setRunning (s : State) (h : Option HandlerId) : HostStep s (s.setRunning h) :=
  ⟨rfl, rfl, id, id, id, fun _ => id⟩

theorem hostStep_enterTrap (h : HandlerId) (s : State) : HostStep s (enterTrap h s) := by
  rcases enterTrap_cases h s with e | e <;> rw [e] <;> exact ⟨rfl, rfl, id, id, id, fun _ => id⟩

/-- A trap that answers a next state ran a handler that returned, and no handler is running after it. -/
theorem trap_next {code : Byte} {h : HandlerId} {s t : State} (ht : trap code h s = .next t) :
    (handlerBehaviour h s).ending = .returns ∧
      t = leaveTrap (runActs (handlerBehaviour h s).acts (enterTrap h s)) ∧ HostStep s t := by
  unfold trap at ht
  split at ht
  · rename_i he
    cases ht
    exact ⟨he, rfl, ((hostStep_enterTrap h s).trans (hostStep_runActs _ _)).trans (hostStep_setRunning _ _)⟩
  · cases ht
  · cases ht

end Sys2Proof.Machine
end

