-- ==== Sys2Proof/Laws/Stack.lean ====
section
/-! SUPPORT. The stack micro-operations (41_stack.md R130, R131): what each answers, and when. -/

namespace Sys2Proof.Machine

/-! push -/

theorem push_of_lt (v : Word) (s : State) (h : (s.reg .sp).toNat + 1 < s.params.memSize.val) :
    push v s = .done () ((s.setMem (storeWord s.mem (s.reg .sp).toNat v)).setReg .sp (s.reg .sp + 2)) := by
  simp only [push, s.writeWord_of_lt _ v h]

theorem push_of_ge (v : Word) (s : State) (h : s.params.memSize.val ≤ (s.reg .sp).toNat) :
    push v s = .raised (s.raise .memWriteFault (s.reg .sp)) := by
  simp only [push, s.writeWord_of_ge _ v h, State.raise]

/-- A push that fails raises a fault on a state that differs from the start in memory and draws alone. -/
theorem push_raised {v : Word} {s t : State} (h : push v s = .raised t) :
    s.params.memSize.val ≤ (s.reg .sp).toNat + 1 ∧
      ∃ u, MemStep s u ∧ (s.writeWord (s.reg .sp).toNat v).state = u ∧
        t = u.latch (s.faultRecord .memWriteFault (s.reg .sp)) := by
  rcases Nat.lt_or_ge ((s.reg .sp).toNat + 1) s.params.memSize.val with hlt | hge
  · rw [push_of_lt v s hlt] at h
    cases h
  · refine ⟨hge, (s.writeWord (s.reg .sp).toNat v).state, memStep_writeWord _ _ _, rfl, ?_⟩
    unfold push at h
    split at h
    · cases h
    · rename_i u hu
      rw [hu]
      exact (StackResult.raised.inj h).symm

theorem push_done {v : Word} {s t : State} {u : Unit} (h : push v s = .done u t) :
    (s.reg .sp).toNat + 1 < s.params.memSize.val ∧
      t = (s.setMem (storeWord s.mem (s.reg .sp).toNat v)).setReg .sp (s.reg .sp + 2) := by
  rcases Nat.lt_or_ge ((s.reg .sp).toNat + 1) s.params.memSize.val with hlt | hge
  · rw [push_of_lt v s hlt] at h
    exact ⟨hlt, (StackResult.done.inj h).2.symm⟩
  · unfold push at h
    split at h
    · rename_i w hw
      rcases Nat.eq_or_lt_of_le hge with he | hl
      · rw [s.writeWord_of_eq _ v he.symm] at hw
        cases hw
      · rw [s.writeWord_of_ge _ v (by omega)] at hw
        cases hw
    · cases h

/-! pop -/

theorem pop_of_read (s : State) (v : Word) (hu : underflows s = false)
    (h : s.readWord (s.reg .sp - 2).toNat = some v) : pop s = .done v (s.setReg .sp (s.reg .sp - 2)) := by
  simp only [pop, hu, h, Bool.false_eq_true, if_false]

theorem pop_of_fail (s : State) (hu : underflows s = false) (h : s.readWord (s.reg .sp - 2).toNat = none) :
    pop s = .raised (s.raise .memReadFault (s.reg .sp - 2)) := by
  simp only [pop, hu, h, Bool.false_eq_true, if_false]

theorem pop_of_underflow (s : State) (hu : underflows s = true) :
    pop s = .raised (s.raise .stackUnderflow (s.reg .sp)) := by
  rw [pop, if_pos hu]

theorem pop_done {s t : State} {v : Word} (h : pop s = .done v t) :
    underflows s = false ∧ s.readWord (s.reg .sp - 2).toNat = some v ∧ t = s.setReg .sp (s.reg .sp - 2) := by
  cases hu : underflows s with
  | true => rw [pop_of_underflow s hu] at h; cases h
  | false =>
    cases hr : s.readWord (s.reg .sp - 2).toNat with
    | none => rw [pop_of_fail s hu hr] at h; cases h
    | some w =>
      rw [pop_of_read s w hu hr] at h
      cases h
      exact ⟨rfl, rfl, rfl⟩

/-- A pop that fails changes the fault status alone. -/
theorem pop_raised {s t : State} (h : pop s = .raised t) :
    (underflows s = true ∧ t = s.raise .stackUnderflow (s.reg .sp)) ∨
      (underflows s = false ∧ s.readWord (s.reg .sp - 2).toNat = none ∧
        t = s.raise .memReadFault (s.reg .sp - 2)) := by
  cases hu : underflows s with
  | true =>
    rw [pop_of_underflow s hu] at h
    cases h
    exact .inl ⟨rfl, rfl⟩
  | false =>
    cases hr : s.readWord (s.reg .sp - 2).toNat with
    | none =>
      rw [pop_of_fail s hu hr] at h
      cases h
      exact .inr ⟨rfl, rfl, rfl⟩
    | some w => rw [pop_of_read s w hu hr] at h; cases h

end Sys2Proof.Machine
end

