-- ==== Sys2Proof/Laws/Exec.lean ====
section
/-! SUPPORT. What each meaning can answer, and what a step can do, said once. -/

namespace Sys2Proof.Machine

/-! One equation per instruction, so that no proof unfolds `exec`. -/

@[simp] theorem exec_nop (s : State) : exec .nop s = .next s := rfl

theorem exec_push (v : Word) (s : State) : exec (.push v) s = execPush v s := rfl

theorem exec_popRegister (r : Reg) (s : State) : exec (.popRegister r) s = execPopRegister r s := rfl

theorem exec_addStack (s : State) : exec .addStack s = execAddStack s := rfl

@[simp] theorem exec_addRegister (r1 r2 : Reg) (s : State) :
    exec (.addRegister r1 r2) s = .next (s.setReg r1 (aluAdd (s.reg r1) (s.reg r2))) := rfl

theorem exec_signal (code : Byte) (s : State) : exec (.signal code) s = execSignal code s := rfl

@[simp] theorem aluAdd_eq (x y : Word) : aluAdd x y = x + y := rfl

/-! What each stack meaning answers, by what its micro-operations answer. -/

theorem execPush_of_done {v : Word} {s t : State} (h : push v s = .done () t) : execPush v s = .next t := by
  rw [execPush, h]

theorem execPush_of_raised {v : Word} {s t : State} (h : push v s = .raised t) : execPush v s = .next t := by
  rw [execPush, h]

theorem execPopRegister_of_done {s t : State} {v : Word} (r : Reg) (h : pop s = .done v t) :
    execPopRegister r s = .next (t.setReg r v) := by
  rw [execPopRegister, h]

theorem execPopRegister_of_raised {s t : State} (r : Reg) (h : pop s = .raised t) :
    execPopRegister r s = .next t := by
  rw [execPopRegister, h]

theorem execAddStack_of_done {s s1 s2 t : State} {a1 b1 : Word} (h1 : pop s = .done a1 s1)
    (h2 : pop s1 = .done b1 s2) (h3 : push (a1 + b1) s2 = .done () t) : execAddStack s = .next t := by
  simp only [execAddStack, h1, h2, aluAdd_eq, h3]

theorem execAddStack_of_first_raised {s t : State} (h : pop s = .raised t) : execAddStack s = .next t := by
  rw [execAddStack, h]

theorem execAddStack_of_second_raised {s s1 t : State} {a1 : Word} (h1 : pop s = .done a1 s1)
    (h2 : pop s1 = .raised t) : execAddStack s = .next t := by
  simp only [execAddStack, h1, h2]

/-! Inversion: if the meaning answers `next t`, one of these holds. -/

theorem execPush_next {v : Word} {s t : State} (h : execPush v s = .next t) :
    push v s = .raised t ∨ push v s = .done () t := by
  unfold execPush at h
  split at h
  · rename_i u hu
    cases h
    exact .inl hu
  · rename_i u hu
    cases h
    exact .inr hu

theorem execPopRegister_next {r : Reg} {s t : State} (h : execPopRegister r s = .next t) :
    pop s = .raised t ∨ ∃ v u, pop s = .done v u ∧ t = u.setReg r v := by
  unfold execPopRegister at h
  split at h
  · rename_i u hu
    cases h
    exact .inl hu
  · rename_i v u hu
    cases h
    exact .inr ⟨v, u, hu, rfl⟩

theorem execAddStack_next {s t : State} (h : execAddStack s = .next t) :
    pop s = .raised t ∨
      (∃ a1 s1, pop s = .done a1 s1 ∧ pop s1 = .raised t) ∨
      (∃ a1 s1 b1 s2, pop s = .done a1 s1 ∧ pop s1 = .done b1 s2 ∧
        (push (a1 + b1) s2 = .raised t ∨ push (a1 + b1) s2 = .done () t)) := by
  unfold execAddStack at h
  split at h
  · rename_i u hu
    cases h
    exact .inl hu
  · rename_i a1 s1 h1
    split at h
    · rename_i u hu
      cases h
      exact .inr (.inl ⟨a1, s1, h1, hu⟩)
    · rename_i b1 s2 h2
      split at h
      · rename_i u hu
        cases h
        exact .inr (.inr ⟨a1, s1, b1, s2, h1, h2, .inl hu⟩)
      · rename_i u hu
        cases h
        exact .inr (.inr ⟨a1, s1, b1, s2, h1, h2, .inr hu⟩)

theorem execSignal_next {code : Byte} {s t : State} (h : execSignal code s = .next t) :
    (s.handlerAt code = none ∧ t = s.raise .dispatchFault (zext16 code)) ∨
      ∃ g, s.handlerAt code = some g ∧ trap code g s = .next t := by
  unfold execSignal at h
  split at h
  · rename_i hn
    cases h
    exact .inl ⟨hn, rfl⟩
  · rename_i g hg
    exact .inr ⟨g, hg, h⟩

/-- What any meaning keeps: parameters, the forms of the data, and every filled handler-table entry. The fault status may
have been latched. -/
structure ExecStep (s t : State) : Prop where
  params : t.params = s.params
  canonical : Memory.wf s.mem = true → Memory.wf t.mem = true
  inside : (∀ c ∈ s.mem, c.1 < s.params.memSize.val) → ∀ c ∈ t.mem, c.1 < s.params.memSize.val
  table : HandlerTable.wf s.handlers = true → HandlerTable.wf t.handlers = true
  entries : ∀ code, (s.handlerAt code).isSome = true → (t.handlerAt code).isSome = true

theorem ExecStep.refl (s : State) : ExecStep s s := ⟨rfl, id, id, id, fun _ => id⟩

theorem ExecStep.trans {s t u : State} (h : ExecStep s t) (k : ExecStep t u) : ExecStep s u where
  params := k.params.trans h.params
  canonical := fun w => k.canonical (h.canonical w)
  inside := fun i => by
    have := k.inside (by rw [h.params]; exact h.inside i)
    rwa [h.params] at this
  table := fun w => k.table (h.table w)
  entries := fun c e => k.entries c (h.entries c e)

theorem HostStep.toExecStep {s t : State} (h : HostStep s t) : ExecStep s t :=
  ⟨h.params, h.canonical, h.inside, h.table, h.entries⟩

theorem execStep_setReg (s : State) (r : Reg) (v : Word) : ExecStep s (s.setReg r v) :=
  ⟨rfl, id, id, id, fun _ => id⟩

theorem execStep_latch (s : State) (r : FaultRecord) : ExecStep s (s.latch r) := ⟨rfl, id, id, id, fun _ => id⟩

theorem execStep_push_done {v : Word} {s t : State} {u : Unit} (h : push v s = .done u t) : ExecStep s t := by
  obtain ⟨hlt, rfl⟩ := push_done h
  exact (memStep_storeWord s _ v hlt).toHostStep.toExecStep.trans (execStep_setReg _ _ _)

theorem execStep_push_raised {v : Word} {s t : State} (h : push v s = .raised t) : ExecStep s t := by
  obtain ⟨_, u, hu, _, rfl⟩ := push_raised h
  exact hu.toHostStep.toExecStep.trans (execStep_latch _ _)

theorem execStep_pop_done {s t : State} {v : Word} (h : pop s = .done v t) : ExecStep s t := by
  obtain ⟨_, _, rfl⟩ := pop_done h
  exact execStep_setReg _ _ _

theorem execStep_pop_raised {s t : State} (h : pop s = .raised t) : ExecStep s t := by
  rcases pop_raised h with ⟨_, rfl⟩ | ⟨_, _, rfl⟩ <;> exact execStep_latch _ _

/-- Every instruction keeps what `ExecStep` says. -/
theorem execStep_exec {i : Instr} {s t : State} (h : exec i s = .next t) : ExecStep s t := by
  cases i with
  | nop => cases h; exact ExecStep.refl s
  | push v =>
    rcases execPush_next h with h | h
    · exact execStep_push_raised h
    · exact execStep_push_done h
  | popRegister r =>
    rcases execPopRegister_next h with hp | ⟨v, u, hp, rfl⟩
    · exact execStep_pop_raised hp
    · exact (execStep_pop_done hp).trans (execStep_setReg _ _ _)
  | addStack =>
    rcases execAddStack_next h with h | ⟨a1, s1, h1, h2⟩ | ⟨a1, s1, b1, s2, h1, h2, h3 | h3⟩
    · exact execStep_pop_raised h
    · exact (execStep_pop_done h1).trans (execStep_pop_raised h2)
    · exact ((execStep_pop_done h1).trans (execStep_pop_done h2)).trans (execStep_push_raised h3)
    · exact ((execStep_pop_done h1).trans (execStep_pop_done h2)).trans (execStep_push_done h3)
  | addRegister r1 r2 => cases h; exact execStep_setReg _ _ _
  | signal code =>
    rcases execSignal_next h with ⟨_, rfl⟩ | ⟨g, _, hg⟩
    · exact execStep_latch _ _
    · exact (trap_next hg).2.2.toExecStep

/-! The step. -/

/-- If a step answers `next t`, the machine was neither faulted nor running a handler, and the step is a fetch fault, a
decode fault, or the meaning of the decoded instruction after the PC advance. -/
theorem step_next {s t : State} (h : step s = .next t) :
    s.fault = none ∧ s.running = none ∧
      ((s.fetch = none ∧ t = s.raiseFetch) ∨
        ∃ w, s.fetch = some w ∧
          ((∃ e, decode w = .error e ∧ t = s.advancePc.raiseDecode e) ∨
            ∃ i, decode w = .ok i ∧ exec i s.advancePc = .next t)) := by
  unfold step at h
  split at h
  · cases h
  · rename_i hf
    split at h
    · cases h
    · rename_i hr
      refine ⟨hf, hr, ?_⟩
      split at h
      · rename_i hw
        cases h
        exact .inl ⟨hw, rfl⟩
      · rename_i w hw
        refine .inr ⟨w, hw, ?_⟩
        split at h
        · rename_i e he
          cases h
          exact .inl ⟨e, he, rfl⟩
        · rename_i i hi
          exact .inr ⟨i, hi, h⟩

end Sys2Proof.Machine
end

