-- ==== Sys2Proof/Laws/Load.lean ====
section
/-! SUPPORT. Program load and the placing of a table word change memory alone, and keep its form. -/

namespace Sys2Proof.Machine

theorem memStep_loadProgram (program : List Byte) (a : Nat) (s : State) :
    MemStep s (loadProgram program a s).state := by
  induction program generalizing a s with
  | nil => exact MemStep.refl s
  | cons b rest ih =>
    have hw := memStep_writeByte s a b
    simp only [loadProgram]
    split
    · rename_i t ht
      rwa [ht] at hw
    · rename_i t ht
      rw [ht] at hw
      exact hw.trans (ih (a + 1) t)

theorem memStep_withFetchWord (s : State) (nbits w : Nat) : MemStep s (s.withFetchWord nbits w) :=
  (memStep_writeByte s _ _).trans (memStep_writeByte _ _ _)

end Sys2Proof.Machine
end

