-- ==== Sys2Proof/Laws/PerInstr.lean ====
section
/-! SUPPORT. Statements made for each instruction as a term: its encoded word belongs to its row of the opcode map
(30_encoding.md R88, R94). -/

namespace Sys2Proof.Laws.RowMatch

/-- The encoded word carries the fixed bits of the instruction's row. -/
def Statement (i : Instr) : Prop := encode i &&& (rowOf i).mask = (rowOf i).bits

theorem nop : Statement .nop := rfl

theorem push (v : Word) : Statement (.push v) := by
  simp only [Statement, encode, rowOf]
  ext i hi
  simp only [BitVec.getElem_and, BitVec.getElem_or, BitVec.getElem_shiftLeft]
  interval_cases i <;> simp

theorem popRegister (r : Reg) : Statement (.popRegister r) := by
  cases r <;> rfl

theorem addStack : Statement .addStack := rfl

theorem addRegister (r1 r2 : Reg) : Statement (.addRegister r1 r2) := by
  cases r1 <;> cases r2 <;> rfl

theorem signal (code : Byte) : Statement (.signal code) := by
  simp only [Statement, encode, rowOf]
  ext i hi
  simp only [BitVec.getElem_and, BitVec.getElem_or, BitVec.getElem_shiftLeft]
  interval_cases i <;> simp

end Sys2Proof.Laws.RowMatch
end

