-- ==== Sys2Proof/Tests/Slice0.lean ====
section
/-! SUPPORT. The model's own tests and the witnesses for its statements. Every expected result is from spec/: the encodings
of 30_encoding.md, and the vectors of 95_test_vectors.md named at each test. -/

namespace Sys2Proof.Machine.Tests

/-! ### Helpers -/

/-- A constructed machine with some bytes in memory and some registers set: the launch premise of a vector. -/
def launch (p : Params) (bytes : List Host.Cell) (regs : List (Reg × Word)) : State :=
  let s := bytes.foldl (fun s c => s.setMem (memStore s.mem c.1 c.2)) (State.construct p)
  regs.foldl (fun s r => s.setReg r.1 r.2) s

/-- The vectors' usual machine: 8192 bytes, no underflow check. -/
def small (bytes : List Host.Cell) (regs : List (Reg × Word)) : State := launch Config.hardware bytes regs

/-- The same with 65536 bytes, and the underflow check on or off. -/
def large (check : Bool) (bytes : List Host.Cell) (regs : List (Reg × Word)) : State :=
  launch ⟨⟨65536, by decide, by decide⟩, check, []⟩ bytes regs

/-- The same as `small` with the underflow check on. -/
def checked (bytes : List Host.Cell) (regs : List (Reg × Word)) : State :=
  launch ⟨⟨8192, by decide, by decide⟩, true, []⟩ bytes regs

/-- A host with scripts: handler 0 is the vectors' HALT, 1 sees PC, 2 redefines code 9 as HALT, 3 never returns, 4 starts a
step, 5 jumps. -/
def scripts : List Behaviour :=
  [⟨[.setHalt true], .returns⟩, ⟨[.copyReg .b .pc], .returns⟩, ⟨[.define 9 0], .returns⟩, ⟨[], .never⟩,
   ⟨[], .startsStep⟩, ⟨[.setReg .pc 0x40, .setReg .a 0x99], .returns⟩]

/-- A machine whose host has those scripts and has registered handler `h` for `code`. -/
def hosted (code : Byte) (h : HandlerId) (bytes : List Host.Cell) (regs : List (Reg × Word)) : State :=
  (launch ⟨⟨8192, by decide, by decide⟩, false, scripts⟩ bytes regs).defineHandler code h

/-- The next state, where there is one. -/
def next? : Host.Outcome State Fault Refusal → Option State
  | .next t => some t
  | .fault _ => none
  | .refused _ => none

/-- A register after a step. -/
def regAfter (s : State) (r : Reg) : Option Word := (next? (step s)).map fun t => t.reg r

/-- A word of memory after a step. -/
def wordAfter (s : State) (a : Nat) : Option Word := (next? (step s)).bind fun t => t.readWord a

/-- The record a step latches. -/
def recordAfter (s : State) : Option FaultRecord := (next? (step s)).bind fun t => t.fault

/-! ### Well-formedness smoke test -/

/-- The only check: a Push value above 0xFF is ill formed, and 0xFF is not (R95). -/
theorem test_wellFormed_refuses_wide_push :
    wellFormed (.push 0x0100) = false ∧ wellFormed (.push 0x00FF) = true := by decide

/-! ### Decoding: each constructor's word written out from 30_encoding.md's formats -/

/-- Format N, opcode 0: 0x0000, and 0xFF00 whose high byte is ignored (R82). -/
theorem test_decode_nop :
    decode 0b0000000000000000#16 = .ok .nop ∧ decode 0b1111111100000000#16 = .ok .nop := ⟨rfl, rfl⟩

/-- Format I8, opcode 1: `Push 10` is 0x0A01; `Push 0xFF` is zero-extended (R83). -/
theorem test_decode_push :
    decode 0b0000101000000001#16 = .ok (.push 0x000A) ∧ decode 0b1111111100000001#16 = .ok (.push 0x00FF) :=
  ⟨rfl, rfl⟩

/-- Format R, opcode 2: `PopRegister SP` is 0x0402; index 8 is refused (R84). -/
theorem test_decode_popRegister :
    decode 0b0000010000000010#16 = .ok (.popRegister .sp) ∧
      decode 0b0000100000000010#16 = .error ⟨.badRegister, 0x0802, 0x08⟩ := ⟨rfl, rfl⟩

/-- Format N, opcode 3: 0x0003, and 0xAB03 whose high byte is ignored (R82). -/
theorem test_decode_addStack :
    decode 0b0000000000000011#16 = .ok .addStack ∧ decode 0b1010101100000011#16 = .ok .addStack := ⟨rfl, rfl⟩

/-- Format RR, opcode 4: `AddRegister A B` is 0x1004 (r2 in bits 15:12); 0xF904 names r1 = 9 (R85, R89). -/
theorem test_decode_addRegister :
    decode 0b0001000000000100#16 = .ok (.addRegister .a .b) ∧
      decode 0b1111100100000100#16 = .error ⟨.badRegister, 0xF904, 0x09⟩ := ⟨rfl, rfl⟩

/-- Format S8, opcode 5: `Signal 0xF0` is 0xF005 (R87); opcode 6 is unknown (R90). -/
theorem test_decode_signal :
    decode 0b1111000000000101#16 = .ok (.signal 0xF0) ∧
      decode 0b0000000000000110#16 = .error ⟨.unknownOpcode, 0x0006, 0x06⟩ := ⟨rfl, rfl⟩

/-- 95_test_vectors.md V2 and E1. -/
theorem test_encode :
    encode (.push 0x01FF) = 0xFF01 ∧ encode (.popRegister .bp) = 0x0602 ∧ encode (.addRegister .sp .pc) = 0x5404 ∧
      encode (.addRegister .flags .bp) = 0x6704 ∧ encode (.signal 0xF0) = 0xF005 ∧ encode .addStack = 0x0003 := by
  decide

/-- The opcode table's numbering: the low byte of the number is the byte at the lower address (R80). -/
theorem test_decodeTableWord :
    decodeTableWord 16 0x0A01 = some (.push 10) ∧ decodeTableWord 8 0x0A01 = some (.push 0) ∧
      decodeTableWord 16 0x0802 = none := by decide

/-- Every instruction's encoded word carries its row's fixed bits (R88). -/
theorem test_rowMatch (i : Instr) : Laws.RowMatch.Statement i := by
  cases i with
  | nop => exact Laws.RowMatch.nop
  | push v => exact Laws.RowMatch.push v
  | popRegister r => exact Laws.RowMatch.popRegister r
  | addStack => exact Laws.RowMatch.addStack
  | addRegister r1 r2 => exact Laws.RowMatch.addRegister r1 r2
  | signal c => exact Laws.RowMatch.signal c

/-! ### One step of each instruction, from 95_test_vectors.md -/

/-- V5: Nop at 0x0010, word 0x5A00. -/
theorem test_nop : next? (step (small [(0x11, 0x5A)] [(.pc, 0x10)])) = some (small [(0x11, 0x5A)] [(.pc, 0x12)]) := by
  decide

/-- V6: Push 0xFF at SP = 0x0010: `FF 00`, SP = 0x0012. -/
theorem test_push :
    wordAfter (small [(0, 1), (1, 0xFF)] [(.sp, 0x10)]) 0x10 = some 0x00FF ∧
      regAfter (small [(0, 1), (1, 0xFF)] [(.sp, 0x10)]) .sp = some 0x12 := by decide

/-- V6 and decision D6: with 65536 bytes a push at 0xFFFE wraps SP to 0; at SP = 0x2000 of 8192 it faults. -/
theorem test_push_edges :
    regAfter (large false [(0, 1), (1, 1)] [(.sp, 0xFFFE)]) .sp = some 0 ∧
      recordAfter (small [(0, 1), (1, 1)] [(.sp, 0x2000)]) = some ⟨.memWriteFault, 0, some 0x0101, 0x2000⟩ := by
  decide

/-- V7: PopRegister A, SP and PC. -/
theorem test_popRegister :
    regAfter (small [(2, 0x34), (3, 0x12), (0x20, 2)] [(.sp, 4), (.pc, 0x20)]) .a = some 0x1234 ∧
      regAfter (small [(0, 2), (1, 4), (0x10, 0), (0x11, 1)] [(.sp, 0x12)]) .sp = some 0x0100 ∧
      regAfter (small [(0, 2), (1, 5), (0x10, 0x40)] [(.sp, 0x12)]) .pc = some 0x0040 := by decide

/-- V7: the pop's two faults at SP = 1, without and with the underflow check; and the wrap at SP = 0 of 65536 bytes. -/
theorem test_popRegister_underflow :
    recordAfter (small [(0x20, 2)] [(.sp, 1), (.pc, 0x20)]) = some ⟨.memReadFault, 0x20, some 0x0002, 0xFFFF⟩ ∧
      recordAfter (checked [(0x20, 2)] [(.sp, 1), (.pc, 0x20)]) = some ⟨.stackUnderflow, 0x20, some 0x0002, 1⟩ ∧
      regAfter (large false [(0x20, 2), (0xFFFE, 0xCD), (0xFFFF, 0xAB)] [(.pc, 0x20)]) .a = some 0xABCD := by decide

/-- V8: SP = 5, an odd stack: the sum 3 at address 1, SP = 3. -/
theorem test_addStack :
    wordAfter (small [(1, 1), (3, 2), (0x20, 3)] [(.sp, 5), (.pc, 0x20)]) 1 = some 3 ∧
      regAfter (small [(1, 1), (3, 2), (0x20, 3)] [(.sp, 5), (.pc, 0x20)]) .sp = some 3 := by decide

/-- V8: the second pop fails at SP = 2: SP = 0 stays, and the record names 0xFFFE. -/
theorem test_addStack_second_pop :
    recordAfter (small [(0, 1), (2, 3)] [(.sp, 2), (.pc, 2)]) = some ⟨.memReadFault, 2, some 0x0003, 0xFFFE⟩ ∧
      regAfter (small [(0, 1), (2, 3)] [(.sp, 2), (.pc, 2)]) .sp = some 0 := by decide

/-- V9: A = 0xFFFF plus B = 1 wraps; `AddRegister PC, C` jumps backward. -/
theorem test_addRegister :
    regAfter (small [(0, 4), (1, 0x10)] [(.a, 0xFFFF), (.b, 1)]) .a = some 0 ∧
      regAfter (small [(0x10, 4), (0x11, 0x25)] [(.c, 0xFFFC), (.pc, 0x10)]) .pc = some 0x000E := by decide

/-- V9: `AddRegister B, PC` reads the next instruction's address; `AddRegister PC, PC` doubles it. -/
theorem test_addRegister_pc :
    regAfter (small [(0x30, 4), (0x31, 0x51)] [(.pc, 0x30)]) .b = some 0x32 ∧
      regAfter (small [(0x10, 4), (0x11, 0x55)] [(.pc, 0x10)]) .pc = some 0x24 := by decide

/-- V10: HALT, the handler that sees the advanced PC, and the handler that jumps. -/
theorem test_signal :
    (next? (step (hosted 0xF0 0 [(0x20, 5), (0x21, 0xF0)] [(.pc, 0x20)]))).map (fun t => (t.halt, t.reg .pc)) =
        some (true, 0x22) ∧
      regAfter (hosted 8 1 [(0x20, 5), (0x21, 8)] [(.pc, 0x20)]) .b = some 0x22 ∧
      regAfter (hosted 7 5 [(0x20, 5), (0x21, 7)] [(.pc, 0x20)]) .pc = some 0x40 := by decide

/-- V10: no handler for code 1; and the handler that redefines itself runs to its end with halt still false. -/
theorem test_signal_table :
    recordAfter (small [(0x20, 5), (0x21, 1)] [(.pc, 0x20)]) = some ⟨.dispatchFault, 0x20, some 0x0105, 1⟩ ∧
      (next? (step (hosted 9 2 [(0x20, 5), (0x21, 9)] [(.pc, 0x20)]))).map (fun t => (t.halt, t.handlerAt 9)) =
        some (false, some 0) := by decide

/-! ### The step, memory, and the host's side -/

/-- V4: fetch faults at 0x1FFF; an odd PC fetches; a decode fault advances PC. -/
theorem test_step_faults :
    recordAfter (small [] [(.pc, 0x1FFF)]) = some ⟨.fetchFault, 0x1FFF, none, 0x1FFF⟩ ∧
      wordAfter (small [(0x11, 1), (0x12, 5)] [(.pc, 0x11), (.sp, 0x40)]) 0x40 = some 5 ∧
      recordAfter (small [(0x20, 2), (0x21, 9)] [(.pc, 0x20)]) = some ⟨.badRegister, 0x20, some 0x0902, 9⟩ := by decide

/-- V4: a step of a halted machine runs normally; a step of a faulted one returns its record and changes nothing. -/
theorem test_step_special_states :
    wordAfter ((small [(0, 1), (1, 7)] []).setHalt true) 0 = some 7 ∧
      stepResponse (small [(0, 1)] [(.pc, 0x2000)] |>.latch ⟨.fetchFault, 0x2000, none, 0x2000⟩) =
        some (.fault ⟨.fetchFault, 0x2000, none, 0x2000⟩,
          small [(0, 1)] [(.pc, 0x2000)] |>.latch ⟨.fetchFault, 0x2000, none, 0x2000⟩) := ⟨by decide, rfl⟩

/-- V3: little-endian words, an odd address, the last byte, and the bounds. -/
theorem test_memory :
    (small [(0x10, 0x34), (0x11, 0x12), (0x12, 0x56)] []).readWord 0x11 = some 0x5612 ∧
      (small [] []).readByte 0x1FFF = some 0 ∧ (small [] []).readWord 0x1FFF = none ∧
      (small [] []).readByte 0x2000 = none ∧ (large false [] []).readWord 0xFFFF = none := by decide

/-- R65: an overlapping copy upward repeats bytes. -/
theorem test_copy :
    ((State.copyBytes 0 1 3 (small [(0, 7)] [])).state.readByte 3) = some 7 := by decide

/-- E8, its load and first step: the five bytes go to 0 to 4, byte 5 stays 0, and `Push 10` overwrites its own word. -/
theorem test_load_and_first_step :
    (next? (step (loadProgram [0x01, 0x0A, 0x01, 0x08, 0x03] 0 State.reset).state)).map
        (fun t => (t.readWord 0, t.readWord 2, t.readWord 4, t.reg .sp, t.reg .pc)) =
      some (some 0x000A, some 0x0801, some 0x0003, 2, 2) := by decide

/-- V11: literals, registers and truncation. -/
theorem test_assembler :
    assemble ["; comment".toList, "  Push \t $1FF ".toList, "PopRegister 4".toList, "".toList,
        "AddRegister PC C".toList, "Signal %11".toList] =
      .ok [0x01, 0xFF, 0x02, 0x04, 0x04, 0x25, 0x05, 0x03] := by decide

/-- V11: the four errors. -/
theorem test_assembler_errors :
    assembleLine "push 10".toList = .error ⟨.unknownMnemonic, "push".toList⟩ ∧
      assembleLine "Push $".toList = .error ⟨.invalidLiteral, "$".toList⟩ ∧
      assembleLine "PopRegister 8".toList = .error ⟨.outOfRangeRegister, "8".toList⟩ ∧
      assembleLine "Push 10 ; note".toList = .error ⟨.wrongArgCount, "Push".toList⟩ ∧
      assembleLine "Signal 256".toList = .error ⟨.invalidLiteral, "256".toList⟩ := by decide

/-! ### Witnesses: states and operands that meet the hypotheses of the statements of Certificates/Slice0 -/

theorem witness_StepRunsDecodedInstruction :
    Ready (small [(0, 1), (1, 0x0A)] []) ∧ (small [(0, 1), (1, 0x0A)] []).readByte 0 = some 0x01 ∧
      (small [(0, 1), (1, 0x0A)] []).readByte 1 = some 0x0A ∧ decodeBytes 0x01 0x0A = .ok (.push 10) :=
  ⟨⟨rfl, rfl⟩, by decide, by decide, rfl⟩

theorem witness_PlacedTableWordIsRun :
    Ready State.reset ∧ Inv State.reset ∧ (State.reset.reg .pc).toNat + 1 < State.reset.params.memSize.val ∧
      decodeTableWord 16 0x0A01 = some (.push 10) :=
  ⟨⟨rfl, rfl⟩, ⟨rfl, (fun _ hc => by cases hc), rfl, rfl⟩, by decide, by decide⟩

/-- Both clauses at their boundary: PC = 0x1FFF has one byte in bounds, 0x2000 none, 0x1FFE both; and a step there faults. -/
theorem witness_FetchFaultChangesOnlyFaultStatus :
    Ready (small [] [(.pc, 0x1FFF)]) ∧ 0x2000 ≤ 0x1FFF + 1 ∧ Ready (small [] [(.pc, 0x2000)]) ∧
      Ready (small [(0x1FFE, 6)] [(.pc, 0x1FFE)]) ∧ 0x1FFE + 1 < 0x2000 ∧
      recordAfter (small [(0x1FFE, 6)] [(.pc, 0x1FFE)]) = some ⟨.unknownOpcode, 0x1FFE, some 6, 6⟩ :=
  ⟨⟨rfl, rfl⟩, by decide, ⟨rfl, rfl⟩, ⟨rfl, rfl⟩, by decide, by decide⟩

theorem witness_DecodeFaultLeavesPcAdvanced :
    Ready (small [(0, 2), (1, 9)] []) ∧ (small [(0, 2), (1, 9)] []).fetch = some 0x0902 ∧
      decode 0x0902 = .error ⟨.badRegister, 0x0902, 9⟩ := ⟨⟨rfl, rfl⟩, by decide, rfl⟩

theorem witness_FaultedStepReturnsSameRecord :
    (State.reset.latch ⟨.fetchFault, 0, none, 0⟩).fault = some ⟨.fetchFault, 0, none, 0⟩ := rfl

theorem witness_NestedStepIsRefused :
    (State.reset.setRunning (some 3)).fault = none ∧ (State.reset.setRunning (some 3)).running = some 3 := ⟨rfl, rfl⟩

/-- A step that runs no handler, and a slot that its instruction does not list. -/
theorem witness_UnlistedSlotsAreNeitherReadNorWritten :
    Ready (small [(0, 2)] [(.sp, 4)]) ∧
      ∀ i, nextInstr (small [(0, 2)] [(.sp, 4)]) = some i →
        runsHandler i (small [(0, 2)] [(.sp, 4)]) = false ∧ Reg.flags ∉ readSlots i ∧ Reg.flags ∉ writtenSlots i := by
  refine ⟨⟨rfl, rfl⟩, fun i h => ?_⟩
  have hn : nextInstr (small [(0, 2)] [(.sp, 4)]) = some (.popRegister .a) := by decide
  rw [hn] at h
  cases h
  decide

/-- CoreIgnoresHaltFlag and ReadyStepWithoutHandlerAlwaysProceeds: a ready step that runs no handler. -/
theorem witness_ReadyStepWithoutHandlerAlwaysProceeds :
    Ready State.reset ∧ ∀ i, nextInstr State.reset = some i → runsHandler i State.reset = false := by
  refine ⟨⟨rfl, rfl⟩, fun i h => ?_⟩
  have hn : nextInstr State.reset = some .nop := by decide
  rw [hn] at h
  cases h
  rfl

/-- A step that does not write PC, and one that names PC and faults (`PopRegister PC` at SP = 0). -/
theorem witness_PcAdvancesUnlessWritten :
    (∃ t, step State.reset = .next t) ∧ State.reset.fetch = some 0 ∧ nextInstr State.reset = some .nop ∧
      nextInstr (small [(0, 2), (1, 5)] []) = some (.popRegister .pc) ∧
      (recordAfter (small [(0, 2), (1, 5)] [])).isSome = true := ⟨⟨_, rfl⟩, by decide, by decide, by decide, by decide⟩

/-- A step that faults, for each clause of EachInstructionRaisesOnlyItsFaults (and for FaultRecordNamesFaultingInstruction): fetch, Push,
PopRegister and AddStack without and with the check, Signal, a bad register under opcodes 2 and 4, opcodes 6 and 255. -/
theorem witness_EachInstructionRaisesOnlyItsFaults :
    (recordAfter (small [] [(.pc, 0x2000)])).map (·.cause) = some .fetchFault ∧
      (recordAfter (small [(0, 1)] [(.sp, 0x2000)])).map (·.cause) = some .memWriteFault ∧
      (recordAfter (small [(0, 2)] [])).map (·.cause) = some .memReadFault ∧
      (recordAfter (checked [(0, 2)] [])).map (·.cause) = some .stackUnderflow ∧
      (recordAfter (small [(0, 3)] [])).map (·.cause) = some .memReadFault ∧
      (recordAfter (checked [(0, 3)] [])).map (·.cause) = some .stackUnderflow ∧
      (recordAfter (small [(0, 5)] [])).map (·.cause) = some .dispatchFault ∧
      (recordAfter (small [(0, 2), (1, 8)] [])).map (·.cause) = some .badRegister ∧
      (recordAfter (small [(0, 4), (1, 8)] [])).map (·.cause) = some .badRegister ∧
      (recordAfter (small [(0, 6)] [])).map (·.cause) = some .unknownOpcode ∧
      (recordAfter (small [(0, 255)] [])).map (·.cause) = some .unknownOpcode := by decide

/-- EveryStepKeepsInvariant and StepNeverChangesParameters: a state with the invariant and a step that answers next. -/
theorem witness_EveryStepKeepsInvariant : Inv State.reset ∧ ∃ t, step State.reset = .next t :=
  ⟨⟨rfl, (fun _ hc => by cases hc), rfl, rfl⟩, ⟨_, rfl⟩⟩

theorem witness_HandlerEntriesAreNeverEmptied :
    (next? (step (hosted 9 2 [(0, 5), (1, 9)] []))).isSome = true ∧
      ((hosted 9 2 [(0, 5), (1, 9)] []).handlerAt 9).isSome = true := by decide

/-- OnlyHandlersWriteHaltAndTable and RegistersNotWrittenAreUnchanged: a next state without a handler, and a slot not written. -/
theorem witness_RegistersNotWrittenAreUnchanged :
    (∃ t, exec (.addRegister .a .b) State.reset = .next t) ∧ runsHandler (.addRegister .a .b) State.reset = false ∧
      Reg.b ∉ writtenSlots (.addRegister .a .b) := ⟨⟨_, rfl⟩, rfl, by decide⟩

/-- SP at the last place a push fits. -/
theorem witness_PushStoresValueAtSp :
    Memory.wf (small [(5, 1)] [(.sp, 0x1FFE)]).mem = true ∧
      ((small [(5, 1)] [(.sp, 0x1FFE)]).reg .sp).toNat + 1 < (small [(5, 1)] [(.sp, 0x1FFE)]).params.memSize.val := by
  decide

/-- SP at the first two places a push does not fit: one byte in bounds, and none. -/
theorem witness_PushOutOfBoundsTakesWriteFault :
    Memory.wf (small [(5, 1)] [(.sp, 0x1FFF)]).mem = true ∧
      (small [(5, 1)] [(.sp, 0x1FFF)]).params.memSize.val ≤ ((small [(5, 1)] [(.sp, 0x1FFF)]).reg .sp).toNat + 1 ∧
      ((small [(5, 1)] [(.sp, 0x1FFF)]).reg .sp).toNat < (small [(5, 1)] [(.sp, 0x1FFF)]).params.memSize.val ∧
      (small [] [(.sp, 0x2000)]).params.memSize.val ≤ ((small [] [(.sp, 0x2000)]).reg .sp).toNat := by decide

theorem witness_PushIsSeenByNextFetch :
    Memory.wf (small [] []).mem = true ∧ ((small [] []).reg .sp).toNat + 1 < (small [] []).params.memSize.val ∧
      (small [] []).reg .sp = (small [] []).reg .pc := by decide

/-- The usual case, and the corner of log entry 14: check on and SP = 0xFFFE of 65536 bytes. -/
theorem witness_PopAfterPushReturnsValue :
    (∃ t, push 5 (small [] []) = .done () t ∧ underflows t = false) ∧
      (∃ t, push 5 (large true [] [(.sp, 0xFFFE)]) = .done () t ∧ underflows t = true) ∧
      (large true [] [(.sp, 0xFFFE)]).params.stackUnderflowCheck = true ∧
      (large true [] [(.sp, 0xFFFE)]).reg .sp = 0xFFFE :=
  ⟨⟨_, push_of_lt 5 (small [] []) (by decide), by decide⟩,
    ⟨_, push_of_lt 5 (large true [] [(.sp, 0xFFFE)]) (by decide), by decide⟩, rfl, rfl⟩

/-- The word just below the end of memory, popped into a general register, into SP and into PC. -/
theorem witness_PopRegisterLoadsTopOfStack :
    underflows (small [(0x1FFE, 7)] [(.sp, 0x2000)]) = false ∧
      (small [(0x1FFE, 7)] [(.sp, 0x2000)]).readWord ((small [(0x1FFE, 7)] [(.sp, 0x2000)]).reg .sp - 2).toNat = some 7 := by
  decide

/-- The underflow at SP = 1 with the check on; the read fault at SP = 1 with it off, and at 0x2001 with it on. -/
theorem witness_PopRegisterFaultChangesOnlyFaultStatus :
    ((checked [] [(.sp, 1)]).params.stackUnderflowCheck = true ∧ ((checked [] [(.sp, 1)]).reg .sp).toNat < 2) ∧
      (¬((small [] [(.sp, 1)]).params.stackUnderflowCheck = true ∧ ((small [] [(.sp, 1)]).reg .sp).toNat < 2) ∧
        (small [] [(.sp, 1)]).params.memSize.val ≤ ((small [] [(.sp, 1)]).reg .sp - 2).toNat + 1) ∧
      ¬((checked [] [(.sp, 0x2001)]).params.stackUnderflowCheck = true ∧ ((checked [] [(.sp, 0x2001)]).reg .sp).toNat < 2) ∧
      (checked [] [(.sp, 0x2001)]).params.memSize.val ≤ ((checked [] [(.sp, 0x2001)]).reg .sp - 2).toNat + 1 := by decide

theorem witness_PopRegisterPcJumpsToPoppedValue :
    Ready (small [(0, 2), (1, 5), (0x10, 0x41)] [(.sp, 0x12)]) ∧
      nextInstr (small [(0, 2), (1, 5), (0x10, 0x41)] [(.sp, 0x12)]) = some (.popRegister .pc) ∧
      underflows (small [(0, 2), (1, 5), (0x10, 0x41)] [(.sp, 0x12)]) = false ∧
      (small [(0, 2), (1, 5), (0x10, 0x41)] [(.sp, 0x12)]).readWord 0x10 = some 0x41 :=
  ⟨⟨rfl, rfl⟩, by decide, by decide, by decide⟩

/-- The lowest stack two words fit on, with the check on. -/
theorem witness_AddStackReplacesTwoWordsByTheirSum :
    Memory.wf (checked [(0, 10), (2, 8)] [(.sp, 4)]).mem = true ∧
      4 ≤ ((checked [(0, 10), (2, 8)] [(.sp, 4)]).reg .sp).toNat ∧
      (checked [(0, 10), (2, 8)] [(.sp, 4)]).readWord ((checked [(0, 10), (2, 8)] [(.sp, 4)]).reg .sp - 2).toNat = some 8 ∧
      (checked [(0, 10), (2, 8)] [(.sp, 4)]).readWord ((checked [(0, 10), (2, 8)] [(.sp, 4)]).reg .sp - 4).toNat = some 10 := by
  decide

/-- The first pop failing (SP = 0), and the second failing after the first succeeded (SP = 2), which is the third clause's state
too. -/
theorem witness_AddStackFaultKeepsEarlierEffects :
    pop (small [] []) = .raised ((small [] []).raise .memReadFault 0xFFFE) ∧
      pop (small [] [(.sp, 2)]) = .done 0 ((small [] [(.sp, 2)]).setReg .sp 0) ∧
      pop ((small [] [(.sp, 2)]).setReg .sp 0) = .raised (((small [] [(.sp, 2)]).setReg .sp 0).raise .memReadFault 0xFFFE) ∧
      (small [] [(.sp, 2)]).params.memSize.val = 8192 ∧ (small [] [(.sp, 2)]).reg .sp = 2 := by decide

theorem witness_AddStackPushCannotFail :
    pop (small [] [(.sp, 4)]) = .done 0 ((small [] [(.sp, 4)]).setReg .sp 2) ∧
      pop ((small [] [(.sp, 4)]).setReg .sp 2) = .done 0 ((small [] [(.sp, 4)]).setReg .sp 0) := by decide

/-- AddRegisterToItselfDoubles and AddRegisterSpMovesStackPointer: the values their last clauses name. -/
theorem witness_AddRegisterSpMovesStackPointer :
    (small [] [(.a, 0x8001)]).reg .a = 0x8001 ∧ (small [] [(.sp, 0x10), (.b, 0xFFFE)]).reg .b = 0xFFFE := by decide

theorem witness_AddRegisterPcJumpsFromNextInstruction :
    Ready (small [(0, 4), (1, 0x25)] [(.c, 4)]) ∧
      nextInstr (small [(0, 4), (1, 0x25)] [(.c, 4)]) = some (.addRegister .pc .c) ∧
      nextInstr (small [(0, 4), (1, 0x55)] []) = some (.addRegister .pc .pc) :=
  ⟨⟨rfl, rfl⟩, by decide, by decide⟩

theorem witness_UnregisteredSignalTakesDispatchFault : State.reset.handlerAt 0xFF = none := rfl

/-- SignalRunsRegisteredHandler and HandlersNeverRaiseACoreFault: HALT registered for 0xF0. -/
theorem witness_SignalRunsRegisteredHandler :
    (hosted 0xF0 0 [] []).handlerAt 0xF0 = some 0 ∧
      (handlerBehaviour 0 (hosted 0xF0 0 [] [])).ending = .returns ∧
      (hosted 0xF0 0 [] []).params.handlerScripts[0]? = some ⟨[.setHalt true], .returns⟩ ∧
      (next? (exec (.signal 0xF0) (hosted 0xF0 0 [] []))).isSome = true := by decide

/-- A handler's byte and word writes at the ends of memory, and a copy of the last two bytes to the first two. -/
theorem witness_HandlerWritesReachTheWholeMachine :
    Memory.wf (small [] []).mem = true ∧ (0x1FFF#16).toNat < (small [] []).params.memSize.val ∧
      (small [] []).params.memSize.val ≤ (0x2000#16).toNat ∧ (0x1FFE#16).toNat + 1 < (small [] []).params.memSize.val ∧
      (∀ k, k < 2 → (0x1FFE#16).toNat + k < (small [] []).params.memSize.val ∧
        (0#16).toNat + k < (small [] []).params.memSize.val) ∧ (0#16).toNat ≤ (0x1FFE#16).toNat := by
  decide

/-- A handler that defines its own code (9), one that defines another (run for 8), and a new handler that returns. -/
theorem witness_RedefinitionDoesNotChangeRunningHandler :
    (hosted 9 2 [] []).handlerAt 9 = some 2 ∧
      handlerBehaviour 2 (hosted 9 2 [] []) = ⟨[] ++ .define 9 0 :: [], .returns⟩ ∧
      (hosted 8 2 [] []).handlerAt 8 = some 2 ∧
      handlerBehaviour 2 (hosted 8 2 [] []) = ⟨[] ++ .define 9 0 :: [], .returns⟩ ∧
      (∀ k, HostAct.define 9 k ∉ ([] : List HostAct)) ∧
      (next? (exec (.signal 9) (hosted 9 2 [] []))).map (fun t => (handlerBehaviour 0 t).ending) = some .returns :=
  ⟨by decide, by decide, by decide, by decide, (fun _ h => by cases h), by decide⟩

/-- A handler that never returns and one that starts a step: in both the Signal has no next state. -/
theorem witness_SignalStopsOnlyWithItsHandler :
    (hosted 1 3 [] []).handlerAt 1 = some 3 ∧ (handlerBehaviour 3 (hosted 1 3 [] [])).ending = .never ∧
      next? (exec (.signal 1) (hosted 1 3 [] [])) = none ∧
      (hosted 1 4 [] []).handlerAt 1 = some 4 ∧ (handlerBehaviour 4 (hosted 1 4 [] [])).ending = .startsStep ∧
      next? (exec (.signal 1) (hosted 1 4 [] [])) = none := by decide

theorem witness_ByteAccessObeysBounds :
    Memory.wf (small [(5, 1)] []).mem = true ∧ 0x1FFF < (small [(5, 1)] []).params.memSize.val ∧
      (small [(5, 1)] []).params.memSize.val ≤ 0x2000 := by decide

theorem witness_WordsAreLittleEndian :
    (small [(0x10, 0x34), (0x11, 0x12)] [(.pc, 0x10)]).readByte 0x10 = some 0x34 ∧
      (small [(0x10, 0x34), (0x11, 0x12)] [(.pc, 0x10)]).readByte 0x11 = some 0x12 ∧
      ((small [(0x10, 0x34), (0x11, 0x12)] [(.pc, 0x10)]).reg .pc).toNat = 0x10 ∧
      Memory.wf (small [] []).mem = true ∧ ∃ t, (small [] []).writeWord 0x1FFE 0xBEEF = .ok t :=
  ⟨by decide, by decide, by decide, rfl, ⟨_, State.writeWord_of_lt _ 0x1FFE 0xBEEF (by decide)⟩⟩

theorem witness_BytesAndWordsShareStorage :
    Memory.wf (small [] []).mem = true ∧ (∃ t, (small [] []).writeByte 0x10 0x55 = .ok t ∧
      t.readWord 0x10 = some 0x0055 ∧ t.readWord 0x0F = some 0x5500) :=
  ⟨rfl, ⟨_, State.writeByte_of_lt _ 0x10 0x55 (by decide), by decide, by decide⟩⟩

/-- A failed word write with its low byte in bounds, and one with neither. -/
theorem witness_WordWriteFailsWithoutBothBytes :
    Memory.wf (small [] []).mem = true ∧ (∃ t, (small [] []).writeWord 0x1FFF 0xBEEF = .fail t) ∧
      (small [] []).writeWord 0x2000 0xBEEF = .fail (small [] []) :=
  ⟨rfl, ⟨_, State.writeWord_of_eq _ 0x1FFF 0xBEEF (by decide)⟩, by decide⟩

/-- A copy whose second read is out of bounds, after one byte was copied; one that succeeds down to address 0; and one upward onto
itself, which repeats the byte. -/
theorem witness_CopyStopsAtFirstFailureWithoutRollback :
    State.copyBytes 0x1FFF 0 2 (small [(0x1FFF, 7)] []) = .fail (small [(0, 7), (0x1FFF, 7)] []) ∧
      Memory.wf (small [(0x1FFF, 7)] []).mem = true ∧
      State.copyBytes 0x1FFE 0 2 (small [(0x1FFF, 7)] []) = .ok (small [(1, 7), (0x1FFF, 7)] []) ∧
      State.copyBytes 0 1 2 (small [(0, 7)] []) = .ok (small [(0, 7), (1, 7), (2, 7)] []) := by decide

/-- A program that fills memory exactly and one that is a byte too long. -/
theorem witness_LoadPlacesProgramAtZero :
    ([1, 10] : List Byte).length ≤ (⟨2, by decide, by decide⟩ : MemSize).val ∧
      (⟨2, by decide, by decide⟩ : MemSize).val < ([1, 10, 3] : List Byte).length := by decide

theorem witness_DecodeOfEncodeIsIdentity : WellFormed (.push 0xFF) ∧ WellFormed (.addRegister .flags .pc) := by decide

/-- An ordinary word and an alternate AddStack word. -/
theorem witness_EncodeOfDecodeIsCanonicalWord :
    decode 0x6704 = .ok (.addRegister .flags .bp) ∧ decode 0xAB03 = .ok .addStack := ⟨rfl, rfl⟩

theorem witness_OnlyPushLosesBitsInEncoding : encode (.push 0x0101) = encode (.push 0x0001) := by decide

/-- The words of PushImmediateIsZeroExtended, PopRegisterIndexIsWholeHighByte, AddRegisterFieldsAreCheckedSeparately,
EverySignalCodeDecodes and IllegalWordsAreDecodeErrors, each clause at its boundary. -/
theorem witness_IllegalWordsAreDecodeErrors :
    (0xFF01#16).extractLsb' 0 8 = 1#8 ∧
      ((0x0702#16).extractLsb' 0 8 = 2#8 ∧ ((0x0702#16).extractLsb' 8 8).toNat ≤ 7) ∧
      ((0x0802#16).extractLsb' 0 8 = 2#8 ∧ 8 ≤ ((0x0802#16).extractLsb' 8 8).toNat) ∧
      ((0x7704#16).extractLsb' 0 8 = 4#8 ∧ ((0x7704#16).extractLsb' 8 4).toNat ≤ 7 ∧ ((0x7704#16).extractLsb' 12 4).toNat ≤ 7) ∧
      ((0x0804#16).extractLsb' 0 8 = 4#8 ∧ 8 ≤ ((0x0804#16).extractLsb' 8 4).toNat) ∧
      ((0x8004#16).extractLsb' 0 8 = 4#8 ∧ 8 ≤ ((0x8004#16).extractLsb' 12 4).toNat) ∧
      (0xF005#16).extractLsb' 0 8 = 5#8 ∧ 6 ≤ ((0x0006#16).extractLsb' 0 8).toNat ∧
      State.reset.handlerAt 0xF0 = none ∧ (hosted 0xF0 0 [] []).handlerAt 0xF0 = some 0 := by decide

theorem witness_WordDecodesExactlyWhenInOneRow :
    (∃ r ∈ opcodeRows, 0x7704#16 &&& r.mask = r.bits) ∧ decode 0xFA04 = .error ⟨.badRegister, 0xFA04, 0x0A⟩ ∧
      decode 0xF704 = .error ⟨.badRegister, 0xF704, 0x0F⟩ ∧ decode 0x0802 = .error ⟨.badRegister, 0x0802, 8⟩ ∧
      decode 0xFF06 = .error ⟨.unknownOpcode, 0xFF06, 6⟩ :=
  ⟨⟨rowOf (.addRegister .a .a), by decide, by decide⟩, rfl, rfl, rfl, rfl⟩

theorem witness_TextFormCannotSpellNop : assembleLine "AddStack".toList = .ok (some .addStack) := by decide

theorem witness_AssembledProgramIsLaidOutInOrder :
    assembleLines ["Push 10".toList, "AddStack".toList] = .ok [.push 10, .addStack] ∧
      assemble ["Push 10".toList, "AddStack".toList] = .ok [0x01, 0x0A, 0x03, 0x00] ∧
      2 * [Instr.push 10, Instr.addStack].length ≤ Config.hardware.memSize.val := by decide

/-- A run that halts, one that faults, and one that goes on. -/
theorem witness_DrivingLoopEndsByItsContract :
    (∃ t, drive 2 (hosted 0xF0 0 [(0, 5), (1, 0xF0)] []) = .halted t) ∧
      (∃ r t, drive 2 (small [(0, 6)] []) = .faulted r t) ∧ ∃ t, drive 2 State.reset = .going t :=
  ⟨⟨_, rfl⟩, ⟨_, _, rfl⟩, ⟨_, rfl⟩⟩

end Sys2Proof.Machine.Tests
end

section
/-! PROOFS. Byte and word accesses (20_memory.md R53 to R55, R58): what a write that succeeded did, what a byte reads as after
a store, and the two bytes of a word that reads. -/

namespace Sys2Proof.Machine

/-! What a write that answers OK did. -/

/-- A byte write that succeeds was in bounds and stored its byte. -/
theorem State.writeByte_ok {s t : State} {a : Nat} {v : Byte} (h : s.writeByte a v = .ok t) :
    a < s.params.memSize.val ∧ t = s.setMem (memStore s.mem a v) := by
  rcases Nat.lt_or_ge a s.params.memSize.val with hlt | hge
  · rw [s.writeByte_of_lt a v hlt] at h
    exact ⟨hlt, (WriteResult.ok.inj h).symm⟩
  · rw [s.writeByte_of_ge a v hge] at h
    cases h

/-- A word write that succeeds had both bytes in bounds and stored its word. -/
theorem State.writeWord_ok {s t : State} {a : Nat} {v : Word} (h : s.writeWord a v = .ok t) :
    a + 1 < s.params.memSize.val ∧ t = s.setMem (storeWord s.mem a v) := by
  rcases Nat.lt_trichotomy (a + 1) s.params.memSize.val with hlt | heq | hgt
  · rw [s.writeWord_of_lt a v hlt] at h
    exact ⟨hlt, (WriteResult.ok.inj h).symm⟩
  · rw [s.writeWord_of_eq a v heq] at h
    cases h
  · rw [s.writeWord_of_ge a v (by omega)] at h
    cases h

/-! What a byte store does to the state. -/

/-- A new memory leaves everything else as it is. -/
theorem sameControl_setMem (s : State) (m : Memory) : SameControl s (s.setMem m) :=
  ⟨⟨rfl, rfl, rfl, rfl⟩, rfl, rfl⟩

theorem State.readByte_memStore_same (s : State) (a : Nat) (v : Byte) (hw : Memory.wf s.mem = true)
    (h : a < s.params.memSize.val) : (s.setMem (memStore s.mem a v)).readByte a = some v := by
  rw [State.readByte_of_lt (s.setMem (memStore s.mem a v)) a h, State.setMem_mem, memLookup_memStore_same _ _ _ hw]

/-- Every other address reads as before, in and out of bounds. -/
theorem State.readByte_memStore_other (s : State) (a b : Nat) (v : Byte) (h : b ≠ a) :
    (s.setMem (memStore s.mem a v)).readByte b = s.readByte b := by
  simp only [State.readByte, State.setMem_valid, State.setMem_mem, memLookup_memStore_other _ _ _ _ h]

/-! The two bytes of a word that reads: the converse of `State.readWord_of_bytes`. -/

theorem State.readByte_of_readWord {s : State} {a : Nat} {w : Word} (h : s.readWord a = some w) :
    s.readByte a = some (lowByte w) ∧ s.readByte (a + 1) = some (highByte w) := by
  obtain ⟨hlt, rfl⟩ := State.readWord_some h
  rw [lowByte_joinBytes, highByte_joinBytes]
  exact ⟨s.readByte_of_lt a (by omega), s.readByte_of_lt (a + 1) hlt⟩

/-! The statements. -/

/-- Settles O41: the case in bounds is a store, read back at its address and at no other; the case out of bounds does nothing. -/
theorem byteAccessObeysBounds : Obligations.ByteAccessObeysBounds := by
  intro s a v hw
  refine ⟨fun hlt => ⟨s.readByte_of_lt a hlt, ?_⟩, fun hge => ⟨s.readByte_of_ge a hge, s.writeByte_of_ge a v hge⟩⟩
  exact ⟨_, s.writeByte_of_lt a v hlt, s.readByte_memStore_same a v hw hlt,
    fun b hb => s.readByte_memStore_other a b v hb, rfl, sameControl_setMem s _⟩

/-- Settles O42: a word is read as R53's formula of its two bytes, a fetch is such a read, and a word stored is read back whole,
so its two bytes read as its halves. -/
theorem wordsAreLittleEndian : Obligations.WordsAreLittleEndian := by
  refine ⟨fun s a b0 b1 h0 h1 => ?_, fun s t a v hw h => ?_, rfl⟩
  · have hr : s.readWord a = some (zext16 b0 ||| (zext16 b1 <<< 8)) := by
      rw [State.readWord_of_bytes h0 h1, joinBytes_eq_or]
    exact ⟨hr, fun hpc => by rw [State.fetch, hpc, hr]⟩
  · obtain ⟨hlt, rfl⟩ := State.writeWord_ok h
    exact State.readByte_of_readWord (readWord_storeWord s a v hw hlt)

/-- Settles O43: each word read has as its half the byte that a byte read gives at the shared address. -/
theorem bytesAndWordsShareStorage : Obligations.BytesAndWordsShareStorage := by
  refine ⟨fun s t a v hw h => ?_, fun s a w0 w1 h0 h1 => ?_⟩
  · obtain ⟨hlt, rfl⟩ := State.writeByte_ok h
    have hv := s.readByte_memStore_same a v hw hlt
    refine ⟨fun w hr => ?_, fun w b hb hr => ?_⟩
    · exact Option.some.inj ((State.readByte_of_readWord hr).1.symm.trans hv)
    · subst hb
      exact Option.some.inj ((State.readByte_of_readWord hr).2.symm.trans hv)
  · have hhigh : s.readByte (a + 1) = some (highByte w0) := (State.readByte_of_readWord h0).2
    have hlow : s.readByte (a + 1) = some (lowByte w1) := (State.readByte_of_readWord h1).1
    exact Option.some.inj (hhigh.symm.trans hlow)

end Sys2Proof.Machine
end

section
/-! PROOFS. The decoder and the encoder (30_encoding.md R81 to R94): what the decoder answers for each opcode, the two bytes
of each encoded instruction, and what of an instruction its encoding carries. -/

namespace Sys2Proof

/-! Register fields (R84, R85): 0 to 7 name a register, 8 and above name none. -/

theorem exists_regOfIndex {n : Nat} (h : n ≤ 7) : ∃ r, regOfIndex n = some r ∧ regIndex r = n := by
  have hsome : (regOfIndex n).isSome = true := by rw [regOfIndex_isSome]; simpa using Nat.lt_succ_of_le h
  obtain ⟨r, hr⟩ := Option.isSome_iff_exists.mp hsome
  exact ⟨r, hr, regIndex_of_regOfIndex hr⟩

theorem regOfIndex_eq_none {n : Nat} (h : 8 ≤ n) : regOfIndex n = none := by
  have hsome : (regOfIndex n).isSome = false := by rw [regOfIndex_isSome]; simpa using h
  simpa using hsome

/-! What the decoder answers, opcode by opcode (R82 to R90). -/

theorem decode_nop {w : Word} (hop : lowByte w = 0#8) : decode w = .ok .nop := by
  rw [decode, hop]; rfl

theorem decode_push {w : Word} (hop : lowByte w = 1#8) : decode w = .ok (.push (zext16 (highByte w))) := by
  rw [decode, hop]; rfl

theorem decode_popRegister {w : Word} {r : Reg} (hop : lowByte w = 2#8)
    (hr : regOfIndex (highByte w).toNat = some r) : decode w = .ok (.popRegister r) := by
  rw [decode, hop]; simp [hr]

theorem decode_popRegister_error {w : Word} (hop : lowByte w = 2#8) (hbad : 8 ≤ (highByte w).toNat) :
    decode w = .error ⟨.badRegister, w, highByte w⟩ := by
  rw [decode, hop]; simp [regOfIndex_eq_none hbad]

theorem decode_addStack {w : Word} (hop : lowByte w = 3#8) : decode w = .ok .addStack := by
  rw [decode, hop]; rfl

theorem decode_addRegister {w : Word} {r1 r2 : Reg} (hop : lowByte w = 4#8)
    (h1 : regOfIndex (field1 w) = some r1) (h2 : regOfIndex (field2 w) = some r2) :
    decode w = .ok (.addRegister r1 r2) := by
  rw [decode, hop]; simp [h1, h2]

theorem decode_addRegister_field1_error {w : Word} (hop : lowByte w = 4#8) (hbad : 8 ≤ field1 w) :
    decode w = .error ⟨.badRegister, w, BitVec.ofNat 8 (field1 w)⟩ := by
  rw [decode, hop]; simp [regOfIndex_eq_none hbad]

theorem decode_addRegister_field2_error {w : Word} (hop : lowByte w = 4#8) (hok : field1 w ≤ 7)
    (hbad : 8 ≤ field2 w) : decode w = .error ⟨.badRegister, w, BitVec.ofNat 8 (field2 w)⟩ := by
  obtain ⟨r1, h1, _⟩ := exists_regOfIndex hok
  rw [decode, hop]; simp [h1, regOfIndex_eq_none hbad]

/-- Either field alone makes the word illegal; the first bad one is the value reported (decision D9). -/
theorem decode_addRegister_error {w : Word} (hop : lowByte w = 4#8) (hbad : 8 ≤ field1 w ∨ 8 ≤ field2 w) :
    ∃ v, decode w = .error ⟨.badRegister, w, v⟩ := by
  rcases Nat.lt_or_ge (field1 w) 8 with hok | hbad1
  · exact ⟨_, decode_addRegister_field2_error hop (by omega) (by omega)⟩
  · exact ⟨_, decode_addRegister_field1_error hop hbad1⟩

theorem decode_signal {w : Word} (hop : lowByte w = 5#8) : decode w = .ok (.signal (highByte w)) := by
  rw [decode, hop]; rfl

theorem decode_unknownOpcode {w : Word} (hop : 6 ≤ (lowByte w).toNat) :
    decode w = .error ⟨.unknownOpcode, w, lowByte w⟩ := by
  unfold decode
  split
  case h_7 => rfl
  all_goals omega

/-! The two bytes of an encoded instruction (R94): the opcode, and the operand in the byte above it. -/

@[simp] theorem lowByte_zext16 (b : Byte) : lowByte (zext16 b) = b := by
  apply BitVec.eq_of_toNat_eq
  have hlt := b.isLt
  simp only [lowByte_toNat, zext16, BitVec.toNat_setWidth]
  omega

theorem zext16_lowByte (w : Word) : zext16 (lowByte w) = w &&& 0xFF#16 := by
  apply BitVec.eq_of_toNat_eq
  have hmask : w.toNat &&& 255 = w.toNat % 256 := Nat.and_two_pow_sub_one_eq_mod w.toNat 8
  simp only [zext16, lowByte_toNat, BitVec.toNat_setWidth, BitVec.toNat_and, BitVec.toNat_ofNat,
    Nat.reducePow, Nat.reduceMod, hmask]
  omega

/-- The packing that Push, PopRegister and Signal share: the operand masked to a byte, above the opcode. -/
theorem maskedOperand_or_opcode (x : Word) (op : Byte) :
    ((x &&& 0xFF#16) <<< 8) ||| zext16 op = joinBytes op (lowByte x) := by
  rw [joinBytes_eq_or, zext16_lowByte, BitVec.or_comm]

theorem encode_push (v : Word) : encode (.push v) = joinBytes 1#8 (lowByte v) := maskedOperand_or_opcode v 1#8

theorem encode_popRegister (r : Reg) :
    encode (.popRegister r) = joinBytes 2#8 (lowByte (BitVec.ofNat 16 (regIndex r))) :=
  maskedOperand_or_opcode _ 2#8

theorem encode_signal (c : Byte) : encode (.signal c) = joinBytes 5#8 c := by
  have h := maskedOperand_or_opcode (zext16 c) 5#8
  rwa [lowByte_zext16] at h

/-! What an encoding carries (R93). -/

/-- The instruction as its encoding carries it: a Push keeps the low 8 bits of its value, every other instruction is whole. -/
def carried : Instr → Instr
  | .push v => .push (v &&& 0xFF#16)
  | i => i

theorem decode_encode_popRegister (r : Reg) : decode (encode (.popRegister r)) = .ok (.popRegister r) := by
  rw [encode_popRegister]
  refine decode_popRegister (lowByte_joinBytes _ _) ?_
  have hlt := regIndex_lt r
  have hindex : (lowByte (BitVec.ofNat 16 (regIndex r))).toNat = regIndex r := by
    rw [lowByte_toNat, BitVec.toNat_ofNat]
    omega
  rw [highByte_joinBytes, hindex, regOfIndex_regIndex]

/-- The two fields are read back from the bits they were packed into; the 64 words are computed. -/
theorem decode_encode_addRegister (r1 r2 : Reg) :
    decode (encode (.addRegister r1 r2)) = .ok (.addRegister r1 r2) := by
  cases r1 <;> cases r2 <;> rfl

/-- R95's first law for every instruction, well formed or not. -/
theorem decode_encode (i : Instr) : decode (encode i) = .ok (carried i) := by
  cases i with
  | nop => exact decode_nop rfl
  | push v =>
    rw [encode_push, decode_push (lowByte_joinBytes _ _), highByte_joinBytes, zext16_lowByte]
    rfl
  | popRegister r => exact decode_encode_popRegister r
  | addStack => exact decode_addStack rfl
  | addRegister r1 r2 => exact decode_encode_addRegister r1 r2
  | signal c =>
    rw [encode_signal, decode_signal (lowByte_joinBytes _ _), highByte_joinBytes]
    rfl

theorem carried_eq_of_encode_eq {i j : Instr} (h : encode i = encode j) : carried i = carried j := by
  have hd := congrArg decode h
  rw [decode_encode, decode_encode] at hd
  exact Except.ok.inj hd

/-- Only a Push is carried as a Push. -/
theorem carried_eq_push {i : Instr} {x : Word} (h : carried i = .push x) : ∃ v, i = .push v ∧ v &&& 0xFF#16 = x := by
  cases i with
  | push v => exact ⟨v, rfl, Instr.push.inj h⟩
  | _ => cases h

theorem carried_of_ne_push {i : Instr} (h : ∀ v, i ≠ .push v) : carried i = i := by
  cases i with
  | push v => exact absurd rfl (h v)
  | _ => rfl

/-! Bits that a small field leaves 0. -/

theorem bits11_zero_of_highByte_le {w : Word} (h : (highByte w).toNat ≤ 7) : w.extractLsb' 11 5 = 0#5 := by
  rw [highByte_toNat] at h
  apply BitVec.eq_of_toNat_eq
  simp only [BitVec.extractLsb'_toNat, BitVec.toNat_ofNat, Nat.shiftRight_eq_div_pow]
  omega

theorem bits8_eq_highByte_of_le {w : Word} (h : (highByte w).toNat ≤ 7) :
    (w.extractLsb' 8 3).toNat = (highByte w).toNat := by
  rw [highByte_toNat] at h ⊢
  simp only [BitVec.extractLsb'_toNat, Nat.shiftRight_eq_div_pow]
  omega

theorem nibble_topBit_false {w : Word} {start : Nat} (h : (w.extractLsb' start 4).toNat ≤ 7) :
    w.getLsbD (start + 3) = false := by
  have htop : (w.extractLsb' start 4).getLsbD 3 = false :=
    Nat.testBit_lt_two_pow (Nat.lt_succ_of_le h)
  simpa [BitVec.getLsbD_extractLsb'] using htop

end Sys2Proof

namespace Sys2Proof.Machine

/-! What a Signal's body does, by what the handler table holds at execution (43_signal.md R160). -/

theorem execSignal_of_none {code : Byte} {s : State} (h : s.handlerAt code = none) :
    execSignal code s = .next (s.raise .dispatchFault (zext16 code)) := by
  rw [execSignal, h]

theorem execSignal_of_some {code : Byte} {g : HandlerId} {s : State} (h : s.handlerAt code = some g) :
    execSignal code s = trap code g s := by
  rw [execSignal, h]

/-! The statements. -/

/-- Settles O51: a word decodes to what it carries, so two instructions with one word carry the same; and what is carried is the
instruction itself unless it is a Push. -/
theorem onlyPushLosesBitsInEncoding : Obligations.OnlyPushLosesBitsInEncoding := by
  refine ⟨fun i j h => ?_, fun v => ⟨?_, decode_encode (.push v)⟩⟩
  · have hc := carried_eq_of_encode_eq h
    by_cases hi : ∃ u, i = .push u
    · obtain ⟨u, rfl⟩ := hi
      obtain ⟨v, rfl, hv⟩ := carried_eq_push hc.symm
      exact .inr ⟨u, v, rfl, rfl, hv.symm⟩
    · have hi : ∀ u, i ≠ .push u := not_exists.mp hi
      rw [carried_of_ne_push hi] at hc
      have hj : ∀ v, j ≠ .push v := fun v hv => hi (v &&& 0xFF#16) (by rw [hc, hv, carried])
      exact .inl (hc.trans (carried_of_ne_push hj))
  · rw [encode_push, encode_push, ← zext16_lowByte, lowByte_zext16]

/-- Settles O53: the high byte names a register exactly when it is at most 7, and then its upper five bits are 0. -/
theorem popRegisterIndexIsWholeHighByte : Obligations.PopRegisterIndexIsWholeHighByte := by
  intro w hop
  refine ⟨fun hle => ?_, fun hgt => ⟨_, decode_popRegister_error hop hgt⟩⟩
  obtain ⟨r, hr, hindex⟩ := exists_regOfIndex hle
  exact ⟨r, decode_popRegister hop hr, hindex, bits11_zero_of_highByte_le hle,
    hindex.trans (bits8_eq_highByte_of_le hle).symm⟩

/-- Settles O54: each nibble names a register exactly when it is at most 7, and then its top bit is 0. -/
theorem addRegisterFieldsAreCheckedSeparately : Obligations.AddRegisterFieldsAreCheckedSeparately := by
  intro w hop
  refine ⟨fun ⟨hle1, hle2⟩ => ?_, fun hgt => ?_⟩
  · obtain ⟨r1, hr1, hindex1⟩ := exists_regOfIndex hle1
    obtain ⟨r2, hr2, hindex2⟩ := exists_regOfIndex hle2
    exact ⟨r1, r2, decode_addRegister hop hr1 hr2, hindex1, hindex2, nibble_topBit_false hle1, nibble_topBit_false hle2,
      fun s => ⟨_, exec_addRegister r1 r2 s, by rw [State.setReg_reg_same, aluAdd_eq]⟩⟩
  · obtain ⟨v, hv⟩ := decode_addRegister_error hop hgt
    exact ⟨_, hv⟩

/-- Settles O56: one decoder equation for each of R90's three lists. -/
theorem illegalWordsAreDecodeErrors : Obligations.IllegalWordsAreDecodeErrors := by
  refine fun w => ⟨fun hop => ?_, fun ⟨hop, hbad⟩ => ?_, fun ⟨hop, hbad⟩ => ?_⟩
  · exact ⟨_, decode_unknownOpcode hop, rfl, rfl, rfl⟩
  · exact ⟨_, decode_popRegister_error hop hbad, rfl, rfl⟩
  · obtain ⟨v, hv⟩ := decode_addRegister_error hop hbad
    exact ⟨_, hv, rfl, rfl⟩

/-- Settles O52: the decoded value is the high byte widened with zeros, so it is that byte as a number. -/
theorem pushImmediateIsZeroExtended : Obligations.PushImmediateIsZeroExtended := by
  intro w hop
  have hlt := (highByte w).isLt
  have hvalue : (zext16 (highByte w)).toNat = (highByte w).toNat :=
    BitVec.toNat_setWidth_of_le (by decide)
  exact ⟨_, decode_push hop, hvalue, by omega⟩

/-- Settles O55: the decoder does not see the handler table; the body looks the code up. -/
theorem everySignalCodeDecodes : Obligations.EverySignalCodeDecodes := by
  refine fun w hop => ⟨decode_signal hop, fun s => ⟨fun hnone => ?_, fun h hsome => ?_⟩⟩
  · exact ⟨_, (exec_signal _ s).trans (execSignal_of_none hnone), rfl⟩
  · exact (exec_signal _ s).trans (execSignal_of_some hsome)

end Sys2Proof.Machine
end

section
/-! PROOFS. The fetch (40_engine.md R121): what a step does when the fetch fails, and, for a fetch that succeeds, the faults a
body can raise (60_exceptions.md R182), none of which is a fetch fault. -/

namespace Sys2Proof.Machine

/-! The causes a body can raise on the state it starts from: R182's table. -/

/-- The causes of a pop (41_stack.md R131); the underflow only while the check is on. -/
def PopMayRaise (s : State) (c : Cause) : Prop :=
  c = .memReadFault ∨ (c = .stackUnderflow ∧ s.params.stackUnderflowCheck = true)

/-- The causes of each instruction's body; a handler raises none (43_signal.md R161). -/
def MayRaise (s : State) : Instr → Cause → Prop
  | .nop, _ => False
  | .push _, c => c = .memWriteFault
  | .popRegister _, c => PopMayRaise s c
  | .addStack, c => PopMayRaise s c
  | .addRegister _ _, _ => False
  | .signal _, c => c = .dispatchFault

theorem not_popMayRaise_fetchFault (s : State) : ¬ PopMayRaise s .fetchFault := by
  rintro (h | ⟨h, _⟩) <;> cases h

theorem not_mayRaise_fetchFault (s : State) (i : Instr) : ¬ MayRaise s i .fetchFault := by
  cases i with
  | nop => exact id
  | push v => exact Cause.noConfusion
  | popRegister r => exact not_popMayRaise_fetchFault s
  | addStack => exact not_popMayRaise_fetchFault s
  | addRegister r1 r2 => exact id
  | signal code => exact Cause.noConfusion

theorem decodeCause_ne_fetchFault (k : DecodeErrorKind) : decodeCause k ≠ .fetchFault := by
  cases k <;> decide

/-! What the stack micro-operations raise. -/

theorem underflowCheck_of_underflows {s : State} (h : underflows s = true) : s.params.stackUnderflowCheck = true :=
  (Bool.and_eq_true_iff.mp h).1

theorem pop_raised_cause {s t : State} (h : pop s = .raised t) :
    ∃ c info, PopMayRaise s c ∧ t = s.raise c info := by
  rcases pop_raised h with ⟨hu, rfl⟩ | ⟨_, _, rfl⟩
  · exact ⟨_, _, .inr ⟨rfl, underflowCheck_of_underflows hu⟩, rfl⟩
  · exact ⟨_, _, .inl rfl, rfl⟩

/-- The word a pop has just read is at the new SP, so a push there is in bounds (41_stack.md R147). -/
theorem push_ne_raised_of_pop_done {s t u : State} {a : Word} (v : Word) (h : pop s = .done a t) :
    push v t ≠ .raised u := by
  intro hpush
  obtain ⟨_, hread, rfl⟩ := pop_done h
  have hlt := (State.readWord_some hread).1
  have hge := (push_raised hpush).1
  rw [State.setReg_reg_same, State.setReg_params] at hge
  omega

/-- A record made after a write to another register than PC is the same record. -/
theorem State.setReg_faultRecord {r : Reg} (hr : r ≠ .pc) (s : State) (v : Word) (c : Cause) (info : Word) :
    (s.setReg r v).faultRecord c info = s.faultRecord c info := by
  simp only [State.faultRecord, State.setReg_reg_other s r .pc v hr.symm, State.setReg_readWord]

/-- A body leaves the fault status as it is, or latches a record of one of its own causes, made as at the body's start. -/
theorem exec_fault_cases {i : Instr} {s t : State} (h : exec i s = .next t) :
    t.fault = s.fault ∨ ∃ c info, MayRaise s i c ∧ t.fault = some (s.faultRecord c info) := by
  cases i with
  | nop => cases h; exact .inl rfl
  | push v =>
    rcases execPush_next h with hp | hp
    · obtain ⟨_, u, _, _, rfl⟩ := push_raised hp
      exact .inr ⟨_, _, rfl, rfl⟩
    · obtain ⟨_, rfl⟩ := push_done hp
      exact .inl rfl
  | popRegister r =>
    rcases execPopRegister_next h with hp | ⟨v, u, hp, rfl⟩
    · obtain ⟨c, info, hc, rfl⟩ := pop_raised_cause hp
      exact .inr ⟨c, info, hc, rfl⟩
    · obtain ⟨_, _, rfl⟩ := pop_done hp
      exact .inl rfl
  | addStack =>
    rcases execAddStack_next h with h1 | ⟨a1, s1, h1, h2⟩ | ⟨a1, s1, b1, s2, h1, h2, h3 | h3⟩
    · obtain ⟨c, info, hc, rfl⟩ := pop_raised_cause h1
      exact .inr ⟨c, info, hc, rfl⟩
    · obtain ⟨_, _, rfl⟩ := pop_done h1
      obtain ⟨c, info, hc, rfl⟩ := pop_raised_cause h2
      exact .inr ⟨c, info, hc, congrArg some (State.setReg_faultRecord (by decide) _ _ _ _)⟩
    · exact absurd h3 (push_ne_raised_of_pop_done _ h2)
    · obtain ⟨_, _, rfl⟩ := pop_done h1
      obtain ⟨_, _, rfl⟩ := pop_done h2
      obtain ⟨_, rfl⟩ := push_done h3
      exact .inl rfl
  | addRegister r1 r2 => cases h; exact .inl rfl
  | signal code =>
    rcases execSignal_next h with ⟨_, rfl⟩ | ⟨g, _, hg⟩
    · exact .inr ⟨_, _, rfl, rfl⟩
    · obtain ⟨_, _, hhost⟩ := trap_next hg
      exact .inl hhost.fault

/-! The step, by what the fetch answers. -/

theorem step_of_fetch_none {s : State} (hs : Ready s) (hf : s.fetch = none) : step s = .next s.raiseFetch := by
  simp only [step, hs.notFaulted, hs.noneRunning, hf]

/-- A step whose fetch succeeds raises no fetch fault: its fault, if any, is the decoder's or the body's. -/
theorem step_cause_ne_fetchFault {s t : State} {w : Word} {r : FaultRecord} (hw : s.fetch = some w)
    (hstep : step s = .next t) (hr : t.fault = some r) : r.cause ≠ .fetchFault := by
  obtain ⟨hnone, _, ⟨hf, _⟩ | ⟨_, _, ⟨e, _, rfl⟩ | ⟨i, _, hexec⟩⟩⟩ := step_next hstep
  · rw [hw] at hf
    cases hf
  · cases hr
    exact decodeCause_ne_fetchFault e.kind
  · rcases exec_fault_cases hexec with hkept | ⟨c, info, hc, hlatched⟩
    · rw [hr, State.advancePc_fault, hnone] at hkept
      cases hkept
    · cases hr.symm.trans hlatched
      rintro rfl
      exact not_mayRaise_fetchFault _ i hc

/-! The statement. -/

/-- Settles O5: the word at PC reads exactly when both its bytes are in bounds; a failed fetch is the whole step, and after one
that succeeds only the decoder and the body can raise a fault. -/
theorem fetchFaultChangesOnlyFaultStatus : Obligations.FetchFaultChangesOnlyFaultStatus := by
  refine fun s hs => ⟨fun hout => ?_, fun ⟨hlt0, hlt1⟩ => ?_⟩
  · have hf : s.fetch = none := s.readWord_of_ge _ (by omega)
    exact ⟨_, rfl, rfl, step_of_fetch_none hs hf⟩
  · have h0 := s.readByte_of_lt _ hlt0
    have h1 := s.readByte_of_lt _ hlt1
    have hf : s.fetch = some _ := (State.readWord_of_bytes h0 h1).trans (congrArg some (joinBytes_eq_or _ _))
    exact ⟨_, _, h0, h1, hf, fun t r => step_cause_ne_fetchFault hf⟩

end Sys2Proof.Machine
end

section
/-! PROOFS. AddStack (41_stack.md R146, R147): what a failing pop leaves, and why the push after two good pops succeeds. -/

namespace Sys2Proof.Machine

/-- A pop that is not done has latched a record on the state it started from, and changed nothing else (R131). -/
theorem pop_raised_of_ne_done {s : State} (h : ∀ v u, pop s ≠ .done v u) : ∃ r, pop s = .raised (s.latch r) := by
  cases hp : pop s with
  | done v u => exact absurd hp (h v u)
  | raised t =>
    obtain ⟨c, info, _, rfl⟩ := pop_raised_cause hp
    exact ⟨s.faultRecord c info, rfl⟩

/-- The push that follows a pop succeeds: it writes where the pop has just read (R147). -/
theorem push_done_of_pop_done {s t : State} {a : Word} (v : Word) (h : pop s = .done a t) :
    ∃ u, push v t = .done () u := by
  cases hp : push v t with
  | done _ u => exact ⟨u, rfl⟩
  | raised u => exact absurd hp (push_ne_raised_of_pop_done v h)

theorem underflows_eq_false_of_check_off {s : State} (h : s.params.stackUnderflowCheck = false) :
    underflows s = false := by
  rw [underflows, h, Bool.false_and]

/-- R146's example at SP = 2: the first pop reads the word at 0. -/
theorem pop_done_of_sp_two {s : State} (hm : 1 < s.params.memSize.val) (hc : s.params.stackUnderflowCheck = false)
    (hsp : s.reg .sp = 2) : ∃ v, pop s = .done v (s.setReg .sp 0) := by
  have hread := s.readWord_of_lt 0 hm
  have hpop := pop_of_read s _ (underflows_eq_false_of_check_off hc) (by rw [hsp]; exact hread)
  rw [hsp] at hpop
  exact ⟨_, hpop⟩

/-- R146's example at SP = 0: the pop's address wraps to 0xFFFE, outside a memory of fewer than 65536 bytes. -/
theorem pop_raised_of_sp_zero {s : State} (hm : s.params.memSize.val ≤ 0xFFFF) (hc : s.params.stackUnderflowCheck = false)
    (hsp : s.reg .sp = 0) : pop s = .raised (s.raise .memReadFault 0xFFFE#16) := by
  have hread := s.readWord_of_ge 0xFFFE hm
  have hpop := pop_of_fail s (underflows_eq_false_of_check_off hc) (by rw [hsp]; exact hread)
  rwa [hsp] at hpop

/-! The statements. -/

/-- Settles O29: a failing pop latches a record on the state it starts from, and for the second pop that is the state the first pop
left, with SP two lower. -/
theorem addStackFaultKeepsEarlierEffects : Obligations.AddStackFaultKeepsEarlierEffects := by
  refine ⟨fun s hfail => ?first, fun s u v hpop hfail => ?second, fun s hm hc hsp => ?spTwo⟩
  case first =>
    obtain ⟨r, hr⟩ := pop_raised_of_ne_done hfail
    exact ⟨r, execAddStack_of_first_raised hr⟩
  case second =>
    obtain ⟨r, hr⟩ := pop_raised_of_ne_done hfail
    obtain ⟨_, _, rfl⟩ := pop_done hpop
    exact ⟨r, execAddStack_of_second_raised hpop hr⟩
  case spTwo =>
    obtain ⟨v, hfirst⟩ := pop_done_of_sp_two (by omega) hc hsp
    have hsecond : pop (s.setReg .sp 0) = .raised ((s.setReg .sp 0).raise .memReadFault 0xFFFE#16) :=
      pop_raised_of_sp_zero (by rw [State.setReg_params]; omega) hc (State.setReg_reg_same s .sp 0)
    exact ⟨_, execAddStack_of_second_raised hfirst hsecond, rfl, rfl⟩

/-- Settles O30: each pop lowers SP by two and reads at the SP it leaves, so the push writes where the second pop has read. -/
theorem addStackPushCannotFail : Obligations.AddStackPushCannotFail := by
  intro s s1 s2 a1 b1 h1 h2
  refine ⟨?_, ?_, push_done_of_pop_done _ h2⟩
  · obtain ⟨_, _, rfl⟩ := pop_done h1
    obtain ⟨_, _, rfl⟩ := pop_done h2
    rw [State.setReg_reg_same, State.setReg_reg_same, BitVec.sub_sub]
    rfl
  · obtain ⟨_, hread, rfl⟩ := pop_done h2
    rwa [State.setReg_reg_same]

end Sys2Proof.Machine
end

section
/-! PROOFS. AddRegister (42_register.md R151, R153): one register as both operands, and SP as the destination. -/

namespace Sys2Proof.Machine

theorem SameBytes.setReg (s : State) (r : Reg) (v : Word) : SameBytes s (s.setReg r v) :=
  fun a => State.setReg_readByte s r v a

/-- AddRegister completes from every state, the destination takes the sum of both old values, and no byte is written (R150). -/
theorem exec_addRegister_sum (r1 r2 : Reg) (s : State) :
    ∃ t, exec (.addRegister r1 r2) s = .next t ∧ t.reg r1 = s.reg r1 + s.reg r2 ∧ SameBytes s t :=
  ⟨_, exec_addRegister r1 r2 s, State.setReg_reg_same s r1 _, SameBytes.setReg s r1 _⟩

/-- Settles O32: the sum of a value with itself is its double, and the wrap of the sum is the `% 65536`. -/
theorem addRegisterToItselfDoubles : Obligations.AddRegisterToItselfDoubles := by
  intro r s
  obtain ⟨t, hexec, hsum, _⟩ := exec_addRegister_sum r r s
  refine ⟨t, hexec, ?double, fun hr => ?wraps⟩
  case double => rw [hsum, BitVec.toNat_add, Nat.two_mul]
  case wraps =>
    rw [hsum, hr]
    decide

/-- Settles O33: 0xFFFE is the two's complement of 2, so adding it is subtracting 2. -/
theorem addRegisterSpMovesStackPointer : Obligations.AddRegisterSpMovesStackPointer := by
  intro r2 s
  obtain ⟨t, hexec, hsum, hbytes⟩ := exec_addRegister_sum .sp r2 s
  refine ⟨t, hexec, ?sum, fun hr2 => ?minusTwo, hbytes⟩
  case sum => rw [hsum, BitVec.toNat_add]
  case minusTwo =>
    have hneg : (0xFFFE#16 : Word) = -2 := by decide
    rw [hsum, hr2, hneg, BitVec.sub_eq_add_neg]

end Sys2Proof.Machine
end

section
/-! PROOFS. The faults a step can raise (60_exceptions.md R182): the fetch's, the decoder's by opcode, and each body's. -/

namespace Sys2Proof

/-- What a decode error says of the word: a bad register under opcode 2 or 4, or an unknown opcode above 5 (R89). -/
theorem opcode_and_kind_of_decode_error {w : Word} {e : DecodeError} (h : decode w = .error e) :
    ((lowByte w).toNat = 2 ∨ (lowByte w).toNat = 4) ∧ e.kind = .badRegister ∨
      5 < (lowByte w).toNat ∧ e.kind = .unknownOpcode := by
  unfold decode at h
  split at h
  case h_1 | h_2 | h_4 | h_6 => cases h
  case h_3 hop =>
    split at h
    · cases h; exact .inl ⟨.inl hop, rfl⟩
    · cases h
  case h_5 hop =>
    split at h
    · cases h; exact .inl ⟨.inr hop, rfl⟩
    · split at h
      · cases h; exact .inl ⟨.inr hop, rfl⟩
      · cases h
  case h_7 =>
    cases h
    exact .inr ⟨by grind, rfl⟩

end Sys2Proof

namespace Sys2Proof.Machine

/-- The PC advance changes no instruction's causes: they depend on the parameters alone. -/
theorem mayRaise_advancePc {s : State} {i : Instr} {c : Cause} (h : MayRaise s.advancePc i c) : MayRaise s i c := by
  cases i <;> exact h

/-- Where the record a step latches comes from: the failed fetch, the decode error, or the decoded instruction's body. -/
theorem step_fault_cases {s t : State} {r : FaultRecord} (hstep : step s = .next t) (hr : t.fault = some r) :
    (s.fetch = none ∧ r.cause = .fetchFault) ∨
      ∃ w, s.fetch = some w ∧
        ((∃ e, decode w = .error e ∧ r.cause = decodeCause e.kind) ∨
          ∃ i, decode w = .ok i ∧ MayRaise s i r.cause) := by
  obtain ⟨hnone, _, ⟨hf, rfl⟩ | ⟨w, hw, ⟨e, he, rfl⟩ | ⟨i, hi, hexec⟩⟩⟩ := step_next hstep
  · cases hr
    exact .inl ⟨hf, rfl⟩
  · cases hr
    exact .inr ⟨w, hw, .inl ⟨e, he, rfl⟩⟩
  · rcases exec_fault_cases hexec with hkept | ⟨c, info, hc, hlatched⟩
    · rw [hr, State.advancePc_fault, hnone] at hkept
      cases hkept
    · cases hr.symm.trans hlatched
      exact .inr ⟨w, hw, .inr ⟨i, hi, mayRaise_advancePc hc⟩⟩

/-- Settles O13: the record is the fetch's, the decoder's or the body's; a decode error's opcode fixes its cause, and
`MayRaise` is R182's table, row by row. -/
theorem eachInstructionRaisesOnlyItsFaults : Obligations.EachInstructionRaisesOnlyItsFaults := by
  intro s t r hstep hr
  obtain hfetch | ⟨w, hw, ⟨e, he, hcause⟩ | ⟨i, hi, hmay⟩⟩ := step_fault_cases hstep hr
  · exact .inl hfetch
  · refine .inr ⟨w, hw, ?_⟩
    rw [he, hcause]
    obtain ⟨hop, hkind⟩ | ⟨hop, hkind⟩ := opcode_and_kind_of_decode_error he
    · exact .inl ⟨hop, by rw [hkind]; rfl⟩
    · exact .inr ⟨hop, by rw [hkind]; rfl⟩
  · refine .inr ⟨w, hw, ?_⟩
    rw [hi]
    cases i <;> exact hmay

end Sys2Proof.Machine
end

section
/-! PROOFS. What a body that runs no handler leaves alone (10_state.md sections 1, 2 and 4), and what every step keeps:
the machine's invariant, the parameters, and every filled handler-table entry. -/

namespace Sys2Proof.Machine

/-! The host's side: halt flag, handler table, running handler and parameters. -/

theorem SameHostSide.refl (s : State) : SameHostSide s s := ⟨rfl, rfl, rfl, rfl⟩

theorem SameHostSide.trans {s t u : State} (h : SameHostSide s t) (k : SameHostSide t u) : SameHostSide s u :=
  ⟨k.halt.trans h.halt, k.handlers.trans h.handlers, k.running.trans h.running, k.params.trans h.params⟩

theorem MemStep.sameHostSide {s t : State} (h : MemStep s t) : SameHostSide s t :=
  ⟨h.halt, h.handlers, h.running, h.params⟩

theorem sameHostSide_setReg (s : State) (r : Reg) (v : Word) : SameHostSide s (s.setReg r v) := ⟨rfl, rfl, rfl, rfl⟩

theorem sameHostSide_latch (s : State) (r : FaultRecord) : SameHostSide s (s.latch r) := ⟨rfl, rfl, rfl, rfl⟩

theorem sameHostSide_pop_raised {s t : State} (h : pop s = .raised t) : SameHostSide s t := by
  obtain ⟨_, _, _, rfl⟩ := pop_raised_cause h
  exact sameHostSide_latch s _

theorem sameHostSide_pop_done {s t : State} {v : Word} (h : pop s = .done v t) : SameHostSide s t := by
  obtain ⟨_, _, rfl⟩ := pop_done h
  exact sameHostSide_setReg s _ _

theorem sameHostSide_push_raised {v : Word} {s t : State} (h : push v s = .raised t) : SameHostSide s t := by
  obtain ⟨_, u, hu, _, rfl⟩ := push_raised h
  exact hu.sameHostSide.trans (sameHostSide_latch u _)

theorem sameHostSide_push_done {v : Word} {s t : State} (h : push v s = .done () t) : SameHostSide s t := by
  obtain ⟨_, rfl⟩ := push_done h
  exact ⟨rfl, rfl, rfl, rfl⟩

/-- A Signal that runs no handler has an empty table entry. -/
theorem handlerAt_eq_none_of_not_runsHandler {code : Byte} {s : State} (h : runsHandler (.signal code) s = false) :
    s.handlerAt code = none := by
  simpa [runsHandler] using h

/-- Settles O17: the stack micro-operations and a fault stay off the host's side, and a Signal without a handler only faults. -/
theorem onlyHandlersWriteHaltAndTable : Obligations.OnlyHandlersWriteHaltAndTable := by
  intro i s t h hrun
  cases i with
  | nop => cases h; exact SameHostSide.refl s
  | push v =>
    rcases execPush_next h with hp | hp
    · exact sameHostSide_push_raised hp
    · exact sameHostSide_push_done hp
  | popRegister r =>
    rcases execPopRegister_next h with hp | ⟨v, u, hp, rfl⟩
    · exact sameHostSide_pop_raised hp
    · exact (sameHostSide_pop_done hp).trans (sameHostSide_setReg u r v)
  | addStack =>
    rcases execAddStack_next h with h1 | ⟨a1, s1, h1, h2⟩ | ⟨a1, s1, b1, s2, h1, h2, h3 | h3⟩
    · exact sameHostSide_pop_raised h1
    · exact (sameHostSide_pop_done h1).trans (sameHostSide_pop_raised h2)
    · exact absurd h3 (push_ne_raised_of_pop_done _ h2)
    · exact ((sameHostSide_pop_done h1).trans (sameHostSide_pop_done h2)).trans (sameHostSide_push_done h3)
  | addRegister r1 r2 => cases h; exact sameHostSide_setReg s _ _
  | signal code =>
    cases (execSignal_of_none (handlerAt_eq_none_of_not_runsHandler hrun)).symm.trans h
    exact sameHostSide_latch s _

/-! What every step keeps. -/

/-- Every step keeps what `ExecStep` says: the fetch and the decoder change PC and the fault status alone. -/
theorem execStep_step {s t : State} (h : step s = .next t) : ExecStep s t := by
  obtain ⟨_, _, ⟨_, rfl⟩ | ⟨w, _, ⟨e, _, rfl⟩ | ⟨i, _, hexec⟩⟩⟩ := step_next h
  · exact execStep_latch s _
  · exact (execStep_setReg s .pc _).trans (execStep_latch _ _)
  · exact (execStep_setReg s .pc _).trans (execStep_exec hexec)

/-- No body leaves a handler running: a trap clears the running handler on return, and no other body touches it. -/
theorem exec_running {i : Instr} {s t : State} (h : exec i s = .next t) (hs : s.running = none) : t.running = none := by
  cases hrun : runsHandler i s with
  | false => exact (onlyHandlersWriteHaltAndTable i s t h hrun).running.trans hs
  | true =>
    cases i with
    | signal code =>
      rcases execSignal_next h with ⟨_, rfl⟩ | ⟨g, _, hg⟩
      · exact hs
      · obtain ⟨_, rfl, _⟩ := trap_next hg
        rfl
    | _ => cases hrun

theorem step_running {s t : State} (h : step s = .next t) : t.running = none := by
  obtain ⟨_, hs, ⟨_, rfl⟩ | ⟨w, _, ⟨e, _, rfl⟩ | ⟨i, _, hexec⟩⟩⟩ := step_next h
  · exact hs
  · exact hs
  · exact exec_running hexec hs

/-- Settles O14: `ExecStep` is the invariant's three data forms, and no step leaves a handler running. -/
theorem everyStepKeepsInvariant : Obligations.EveryStepKeepsInvariant := by
  intro s t hs h
  have hkeep := execStep_step h
  exact
    { memCanonical := hkeep.canonical hs.memCanonical
      memInside := by rw [hkeep.params]; exact hkeep.inside hs.memInside
      tableCanonical := hkeep.table hs.tableCanonical
      noneRunning := step_running h }

/-- Settles O15: the parameters are part of what every step keeps. -/
theorem stepNeverChangesParameters : Obligations.StepNeverChangesParameters :=
  fun _ _ h => (execStep_step h).params

/-- Settles O16: filled table entries are part of what every step keeps, a handler's own definitions included. -/
theorem handlerEntriesAreNeverEmptied : Obligations.HandlerEntriesAreNeverEmptied :=
  fun _ _ code h => (execStep_step h).entries code

/-! Registers. -/

theorem MemStep.reg {s t : State} (h : MemStep s t) (q : Reg) : t.reg q = s.reg q :=
  congrArg (fun f => regGet f q) h.regs

theorem pop_raised_reg {s t : State} (h : pop s = .raised t) (q : Reg) : t.reg q = s.reg q := by
  obtain ⟨_, _, _, rfl⟩ := pop_raised_cause h
  rfl

theorem pop_done_reg_other {s t : State} {v : Word} (h : pop s = .done v t) {q : Reg} (hq : q ≠ .sp) :
    t.reg q = s.reg q := by
  obtain ⟨_, _, rfl⟩ := pop_done h
  exact State.setReg_reg_other s _ q _ hq

theorem push_raised_reg {v : Word} {s t : State} (h : push v s = .raised t) (q : Reg) : t.reg q = s.reg q := by
  obtain ⟨_, u, hu, _, rfl⟩ := push_raised h
  exact hu.reg q

theorem push_done_reg_other {v : Word} {s t : State} (h : push v s = .done () t) {q : Reg} (hq : q ≠ .sp) :
    t.reg q = s.reg q := by
  obtain ⟨_, rfl⟩ := push_done h
  exact State.setReg_reg_other _ _ q _ hq

/-- Settles O19: a push or pop writes SP alone, and a fault writes no register. -/
theorem registersNotWrittenAreUnchanged : Obligations.RegistersNotWrittenAreUnchanged := by
  intro i s t q h hrun hq
  cases i with
  | nop => cases h; rfl
  | push v =>
    rcases execPush_next h with hp | hp
    · exact push_raised_reg hp q
    · exact push_done_reg_other hp (by simpa [writtenSlots] using hq)
  | popRegister r =>
    obtain ⟨hsp, hr⟩ : q ≠ .sp ∧ q ≠ r := by simpa [writtenSlots] using hq
    rcases execPopRegister_next h with hp | ⟨v, u, hp, rfl⟩
    · exact pop_raised_reg hp q
    · exact (State.setReg_reg_other u r q v hr).trans (pop_done_reg_other hp hsp)
  | addStack =>
    have hsp : q ≠ .sp := by simpa [writtenSlots] using hq
    rcases execAddStack_next h with h1 | ⟨a1, s1, h1, h2⟩ | ⟨a1, s1, b1, s2, h1, h2, h3 | h3⟩
    · exact pop_raised_reg h1 q
    · exact (pop_raised_reg h2 q).trans (pop_done_reg_other h1 hsp)
    · exact absurd h3 (push_ne_raised_of_pop_done _ h2)
    · exact (push_done_reg_other h3 hsp).trans ((pop_done_reg_other h2 hsp).trans (pop_done_reg_other h1 hsp))
  | addRegister r1 r2 => cases h; exact State.setReg_reg_other s r1 q _ (by simpa [writtenSlots] using hq)
  | signal code =>
    cases (execSignal_of_none (handlerAt_eq_none_of_not_runsHandler hrun)).symm.trans h
    rfl

end Sys2Proof.Machine
end

section
/-! PROOFS. The round trips of decoder and encoder (30_encoding.md R95): which fields of a word a decoded instruction holds, and
which fields its encoding has. -/

namespace Sys2Proof

/-! A word is its two bytes, and its high byte is AddRegister's two fields. -/

theorem word_ext {w x : Word} (hlow : lowByte w = lowByte x) (hhigh : highByte w = highByte x) : w = x := by
  rw [← joinBytes_low_high w, hlow, hhigh, joinBytes_low_high]

theorem highByte_eq_fields (w : Word) : (highByte w).toNat = field2 w * 16 + field1 w := by
  simp only [highByte_toNat, field1, field2, BitVec.extractLsb'_toNat, Nat.shiftRight_eq_div_pow]
  omega

theorem lowByte_and (w x : Word) : lowByte (w &&& x) = lowByte w &&& lowByte x := BitVec.extractLsb'_and

theorem highByte_and (w x : Word) : highByte (w &&& x) = highByte w &&& highByte x := BitVec.extractLsb'_and

/-! The fields of an encoded instruction. -/

theorem lowByte_encode_addRegister (r1 r2 : Reg) : lowByte (encode (.addRegister r1 r2)) = 4#8 := by
  cases r1 <;> cases r2 <;> rfl

theorem highByte_encode_addRegister (r1 r2 : Reg) :
    (highByte (encode (.addRegister r1 r2))).toNat = regIndex r2 * 16 + regIndex r1 := by
  cases r1 <;> cases r2 <;> rfl

theorem highByte_encode_popRegister (r : Reg) : (highByte (encode (.popRegister r))).toNat = regIndex r := by
  cases r <;> rfl

/-! The fields of a word that decodes. -/

/-- The word has the instruction's opcode in its low byte and the instruction's operands in its high byte (R82 to R87). -/
def HasFields (w : Word) : Instr → Prop
  | .nop => lowByte w = 0#8
  | .push v => lowByte w = 1#8 ∧ v = zext16 (highByte w)
  | .popRegister r => lowByte w = 2#8 ∧ regIndex r = (highByte w).toNat
  | .addStack => lowByte w = 3#8
  | .addRegister r1 r2 => lowByte w = 4#8 ∧ regIndex r1 = field1 w ∧ regIndex r2 = field2 w
  | .signal c => lowByte w = 5#8 ∧ c = highByte w

theorem hasFields_of_decode {w : Word} {i : Instr} (h : decode w = .ok i) : HasFields w i := by
  unfold decode at h
  split at h
  case h_1 hop => cases h; exact BitVec.eq_of_toNat_eq hop
  case h_2 hop => cases h; exact ⟨BitVec.eq_of_toNat_eq hop, rfl⟩
  case h_3 hop =>
    split at h
    · cases h
    · rename_i r hr
      cases h
      exact ⟨BitVec.eq_of_toNat_eq hop, regIndex_of_regOfIndex hr⟩
  case h_4 hop => cases h; exact BitVec.eq_of_toNat_eq hop
  case h_5 hop =>
    split at h
    · cases h
    · rename_i r1 hr1
      split at h
      · cases h
      · rename_i r2 hr2
        cases h
        exact ⟨BitVec.eq_of_toNat_eq hop, regIndex_of_regOfIndex hr1, regIndex_of_regOfIndex hr2⟩
  case h_6 hop => cases h; exact ⟨BitVec.eq_of_toNat_eq hop, rfl⟩
  case h_7 => cases h

/-- The word an instruction was decoded from, with a high byte of 0 where the decoder ignores it (decision D8). -/
def canonicalWord (w : Word) (i : Instr) : Word := if i = .nop ∨ i = .addStack then w &&& 0x00FF#16 else w

/-- An instruction encodes to the fields it was read from. -/
theorem encode_of_hasFields {w : Word} {i : Instr} (h : HasFields w i) : encode i = canonicalWord w i := by
  cases i with
  | nop =>
    have hlow : lowByte w = 0#8 := h
    exact word_ext (by simp only [canonicalWord, true_or, if_true, lowByte_and, hlow]; rfl)
      (by simp only [canonicalWord, true_or, if_true, highByte_and]; exact BitVec.and_zero.symm)
  | push v =>
    obtain ⟨hlow, rfl⟩ := h
    rw [encode_push, lowByte_zext16, ← hlow, joinBytes_low_high]
    rfl
  | popRegister r =>
    obtain ⟨hlow, hr⟩ := h
    refine word_ext (x := w) ?_ (BitVec.eq_of_toNat_eq ((highByte_encode_popRegister r).trans hr))
    rw [encode_popRegister, lowByte_joinBytes, hlow]
  | addStack =>
    have hlow : lowByte w = 3#8 := h
    exact word_ext (by simp only [canonicalWord, or_true, if_true, lowByte_and, hlow]; rfl)
      (by simp only [canonicalWord, or_true, if_true, highByte_and]; exact BitVec.and_zero.symm)
  | addRegister r1 r2 =>
    obtain ⟨hlow, hr1, hr2⟩ := h
    refine word_ext (x := w) ((lowByte_encode_addRegister r1 r2).trans hlow.symm) (BitVec.eq_of_toNat_eq ?_)
    rw [highByte_encode_addRegister, hr1, hr2, highByte_eq_fields]
  | signal c =>
    obtain ⟨hlow, rfl⟩ := h
    rw [encode_signal, ← hlow, joinBytes_low_high]
    rfl

/-- A well-formed instruction loses nothing in its encoding (R93). -/
theorem carried_of_wellFormed {i : Instr} (h : WellFormed i) : carried i = i := by
  cases i with
  | push v =>
    have hv : v.toNat ≤ 0xFF := of_decide_eq_true h
    have hmask : v &&& 0xFF#16 = v := by
      rw [← zext16_lowByte]
      apply BitVec.eq_of_toNat_eq
      simp only [zext16, lowByte_toNat, BitVec.toNat_setWidth]
      omega
    exact congrArg Instr.push hmask
  | _ => rfl

/-- Settles O49: an encoding decodes to what it carries, and of a well-formed instruction it carries everything. -/
theorem decodeOfEncodeIsIdentity : Obligations.DecodeOfEncodeIsIdentity :=
  fun i h => (decode_encode i).trans (congrArg Except.ok (carried_of_wellFormed h))

/-- Settles O50: a decoded instruction holds the word's fields, and its encoding puts them back where they were. -/
theorem encodeOfDecodeIsCanonicalWord : Obligations.EncodeOfDecodeIsCanonicalWord :=
  fun _ _ h => encode_of_hasFields (hasFields_of_decode h)

/-- Settles O48: each word written out, and decoded. -/
theorem wordsFromTheTablesDecode : Obligations.WordsFromTheTablesDecode :=
  ⟨decode_nop rfl, decode_push rfl, decode_popRegister rfl rfl, decode_addStack rfl, decode_addRegister rfl rfl rfl,
    decode_signal rfl, decode_popRegister_error rfl (by decide), decode_unknownOpcode (by decide)⟩

/-! The opcode map (R88): a row fixes the opcode byte, and in the operand byte the top bit of each register field. -/

/-- The row of any instruction stands in the map. -/
theorem rowOf_mem_opcodeRows (i : Instr) : rowOf i ∈ opcodeRows := by
  cases i <;> simp [rowOf, opcodeRows]

/-- The encoded word of any instruction belongs to its row. -/
theorem encode_and_mask (i : Instr) : encode i &&& (rowOf i).mask = (rowOf i).bits := by
  cases i with
  | nop => exact Laws.RowMatch.nop
  | push v => exact Laws.RowMatch.push v
  | popRegister r => exact Laws.RowMatch.popRegister r
  | addStack => exact Laws.RowMatch.addStack
  | addRegister r1 r2 => exact Laws.RowMatch.addRegister r1 r2
  | signal c => exact Laws.RowMatch.signal c

/-- The bits the canonical form may change are outside the row's mask. -/
theorem canonicalWord_and_mask (w : Word) (i : Instr) : canonicalWord w i &&& (rowOf i).mask = w &&& (rowOf i).mask := by
  cases i with
  | nop => exact (BitVec.and_assoc _ _ _).trans rfl
  | addStack => exact (BitVec.and_assoc _ _ _).trans rfl
  | _ => rfl

/-- A word that decodes belongs to the row of its instruction. -/
theorem and_mask_of_decode {w : Word} {i : Instr} (h : decode w = .ok i) : w &&& (rowOf i).mask = (rowOf i).bits := by
  rw [← canonicalWord_and_mask, ← encode_of_hasFields (hasFields_of_decode h), encode_and_mask]

/-- A row fixes the whole opcode byte. -/
theorem bits_eq_opcode_of_row {w : Word} {r : OpcodeRow} (hr : r ∈ opcodeRows) (h : w &&& r.mask = r.bits) :
    r.bits = w &&& 0xFF#16 := by
  have hfixed : ∀ r ∈ opcodeRows, r.mask &&& 0xFF#16 = 0xFF#16 ∧ r.bits &&& 0xFF#16 = r.bits := by decide
  obtain ⟨hmask, hbits⟩ := hfixed r hr
  rw [← hbits, ← h, BitVec.and_assoc, hmask]

/-- The rows' opcode bytes differ. -/
theorem row_eq_of_bits_eq {r q : OpcodeRow} (hr : r ∈ opcodeRows) (hq : q ∈ opcodeRows) (h : r.bits = q.bits) : r = q := by
  have hdistinct : ∀ r ∈ opcodeRows, ∀ q ∈ opcodeRows, r.bits = q.bits → r = q := by decide
  exact hdistinct r hr q hq h

/-- A word in a row has the row's opcode byte and operand bits. -/
theorem lowByte_of_and_mask {w m b : Word} (h : w &&& m = b) (hm : lowByte m = 0xFF#8) : lowByte w = lowByte b := by
  rw [← h, lowByte_and, hm]
  exact BitVec.and_allOnes.symm

/-- A register field whose top bit is 0 is at most 7. -/
theorem nibble_le_of_topBit {n : BitVec 4} (h : n &&& 8#4 = 0#4) : n.toNat ≤ 7 := by
  revert n
  decide

theorem highByte_le_of_top_bits {w : Word} (h : w &&& 0xF8FF#16 = 0x0002#16) : (highByte w).toNat ≤ 7 := by
  have h1 : w.extractLsb' 8 4 &&& 8#4 = 0#4 := BitVec.extractLsb'_and.symm.trans (congrArg (BitVec.extractLsb' 8 4) h)
  have h2 : w.extractLsb' 12 4 &&& 15#4 = 0#4 := BitVec.extractLsb'_and.symm.trans (congrArg (BitVec.extractLsb' 12 4) h)
  have hf1 : field1 w ≤ 7 := nibble_le_of_topBit h1
  have hf2 : field2 w = 0 := congrArg BitVec.toNat (BitVec.and_allOnes.symm.trans h2)
  rw [highByte_eq_fields, hf2]
  omega

theorem fields_le_of_top_bits {w : Word} (h : w &&& 0x88FF#16 = 0x0004#16) : field1 w ≤ 7 ∧ field2 w ≤ 7 :=
  ⟨nibble_le_of_topBit (BitVec.extractLsb'_and.symm.trans (congrArg (BitVec.extractLsb' 8 4) h)),
    nibble_le_of_topBit (BitVec.extractLsb'_and.symm.trans (congrArg (BitVec.extractLsb' 12 4) h))⟩

/-- A word in a row of the map decodes. -/
theorem decode_of_row {w : Word} {r : OpcodeRow} (hr : r ∈ opcodeRows) (h : w &&& r.mask = r.bits) :
    ∃ i, decode w = .ok i := by
  simp only [opcodeRows, List.mem_cons, List.not_mem_nil, or_false] at hr
  obtain rfl | rfl | rfl | rfl | rfl | rfl := hr
  · exact ⟨_, decode_nop (lowByte_of_and_mask h rfl)⟩
  · exact ⟨_, decode_push (lowByte_of_and_mask h rfl)⟩
  · obtain ⟨r, hreg, _⟩ := exists_regOfIndex (highByte_le_of_top_bits h)
    exact ⟨_, decode_popRegister (lowByte_of_and_mask h rfl) hreg⟩
  · exact ⟨_, decode_addStack (lowByte_of_and_mask h rfl)⟩
  · obtain ⟨hle1, hle2⟩ := fields_le_of_top_bits h
    obtain ⟨r1, hreg1, _⟩ := exists_regOfIndex hle1
    obtain ⟨r2, hreg2, _⟩ := exists_regOfIndex hle2
    exact ⟨_, decode_addRegister (lowByte_of_and_mask h rfl) hreg1 hreg2⟩
  · exact ⟨_, decode_signal (lowByte_of_and_mask h rfl)⟩

/-- The value R89 reports for a word that does not decode: the opcode byte, PopRegister's high byte, or AddRegister's bad field, the
first one where both are bad (decision D9). -/
def offendingValue (w : Word) : Nat :=
  if (lowByte w).toNat = 2 then (highByte w).toNat
  else if (lowByte w).toNat = 4 then (if 8 ≤ field1 w then field1 w else field2 w)
  else (lowByte w).toNat

theorem nibble_toNat_ofNat (x : BitVec 4) : (BitVec.ofNat 8 x.toNat).toNat = x.toNat := by
  have hlt := x.isLt
  rw [BitVec.toNat_ofNat]
  omega

theorem decode_error_cases {w : Word} {e : DecodeError} (h : decode w = .error e) :
    e.word = w ∧ (e.kind = .unknownOpcode ↔ 6 ≤ (lowByte w).toNat) ∧ e.value.toNat = offendingValue w := by
  rcases opcode_and_kind_of_decode_error h with ⟨hop | hop, _⟩ | ⟨hop, _⟩
  · have hlow : lowByte w = 2#8 := BitVec.eq_of_toNat_eq hop
    rcases Nat.lt_or_ge (highByte w).toNat 8 with hok | hbad
    · obtain ⟨r, hr, _⟩ := exists_regOfIndex (Nat.le_of_lt_succ hok)
      cases (decode_popRegister hlow hr).symm.trans h
    · cases (decode_popRegister_error hlow hbad).symm.trans h
      simp [offendingValue, hlow]
  · have hlow : lowByte w = 4#8 := BitVec.eq_of_toNat_eq hop
    rcases Nat.lt_or_ge (field1 w) 8 with hok1 | hbad1
    · rcases Nat.lt_or_ge (field2 w) 8 with hok2 | hbad2
      · obtain ⟨r1, hr1, _⟩ := exists_regOfIndex (Nat.le_of_lt_succ hok1)
        obtain ⟨r2, hr2, _⟩ := exists_regOfIndex (Nat.le_of_lt_succ hok2)
        cases (decode_addRegister hlow hr1 hr2).symm.trans h
      · cases (decode_addRegister_field2_error hlow (Nat.le_of_lt_succ hok1) hbad2).symm.trans h
        have hvalue : (BitVec.ofNat 8 (field2 w)).toNat = field2 w := nibble_toNat_ofNat _
        simp [offendingValue, hlow, Nat.not_le.mpr hok1, hvalue]
    · cases (decode_addRegister_field1_error hlow hbad1).symm.trans h
      have hvalue : (BitVec.ofNat 8 (field1 w)).toNat = field1 w := nibble_toNat_ofNat _
      simp [offendingValue, hlow, hbad1, hvalue]
  · cases (decode_unknownOpcode hop).symm.trans h
    have h2 : (lowByte w).toNat ≠ 2 := by omega
    have h4 : (lowByte w).toNat ≠ 4 := by omega
    exact ⟨rfl, ⟨fun _ => hop, fun _ => rfl⟩, by rw [offendingValue, if_neg h2, if_neg h4]⟩

/-- Settles O57: a word that decodes is in its instruction's row, a word in a row decodes, and the rows' opcode bytes differ; each of
the decoder's errors carries the word and the value that failed. -/
theorem wordDecodesExactlyWhenInOneRow : Obligations.WordDecodesExactlyWhenInOneRow := by
  refine fun w => ⟨⟨fun ⟨i, hi⟩ => ?_, fun ⟨r, hr, h⟩ => decode_of_row hr h⟩, fun r hr q hq hwr hwq => ?_,
    fun e => decode_error_cases⟩
  · exact ⟨rowOf i, rowOf_mem_opcodeRows i, and_mask_of_decode hi⟩
  · exact row_eq_of_bits_eq hr hq ((bits_eq_opcode_of_row hr hwr).trans (bits_eq_opcode_of_row hq hwq).symm)

end Sys2Proof
end

section
/-! PROOFS. The step cycle (40_engine.md sections 1 and 2): one equation for each way a step can go, and what follows of its next
state, its fault record and PC. -/

namespace Sys2Proof.Machine

/-! What a step does, by what the fetch and the decoder answer. -/

theorem step_of_fault {s : State} {r : FaultRecord} (h : s.fault = some r) : step s = .fault (.latched r) := by
  simp only [step, h]

theorem step_of_running {s : State} {g : HandlerId} (hf : s.fault = none) (hr : s.running = some g) :
    step s = .refused (.nestedStep g) := by
  simp only [step, hf, hr]

theorem step_of_decode_error {s : State} {w : Word} {e : DecodeError} (hs : Ready s) (hf : s.fetch = some w)
    (hd : decode w = .error e) : step s = .next (s.advancePc.raiseDecode e) := by
  simp only [step, hs.notFaulted, hs.noneRunning, hf, hd]

theorem step_of_decode_ok {s : State} {w : Word} {i : Instr} (hs : Ready s) (hf : s.fetch = some w)
    (hd : decode w = .ok i) : step s = exec i s.advancePc := by
  simp only [step, hs.notFaulted, hs.noneRunning, hf, hd]

theorem nextInstr_eq_some_iff {s : State} {i : Instr} :
    nextInstr s = some i ↔ ∃ w, s.fetch = some w ∧ decode w = .ok i := by
  refine ⟨fun h => ?_, fun ⟨w, hf, hd⟩ => by simp only [nextInstr, hf, hd]⟩
  unfold nextInstr at h
  split at h
  · cases h
  · rename_i w hf
    split at h
    · rename_i j hd
      cases h
      exact ⟨w, hf, hd⟩
    · cases h

theorem step_of_nextInstr {s : State} {i : Instr} (hs : Ready s) (h : nextInstr s = some i) :
    step s = exec i s.advancePc := by
  obtain ⟨w, hf, hd⟩ := nextInstr_eq_some_iff.mp h
  exact step_of_decode_ok hs hf hd

/-- A ready machine's step is a fetch fault, a decode fault, or the body of the next instruction. -/
theorem step_cases {s : State} (hs : Ready s) :
    step s = .next s.raiseFetch ∨ (∃ e, step s = .next (s.advancePc.raiseDecode e)) ∨
      ∃ i, nextInstr s = some i ∧ step s = exec i s.advancePc := by
  cases hf : s.fetch with
  | none => exact .inl (step_of_fetch_none hs hf)
  | some w =>
    cases hd : decode w with
    | error e => exact .inr (.inl ⟨e, step_of_decode_error hs hf hd⟩)
    | ok i => exact .inr (.inr ⟨i, nextInstr_eq_some_iff.mpr ⟨w, hf, hd⟩, step_of_decode_ok hs hf hd⟩)

/-- Settles O3: the two bytes at PC are the word fetched, and the PC advance is a register write. -/
theorem stepRunsDecodedInstruction : Obligations.StepRunsDecodedInstruction :=
  fun _ _ _ _ hs h0 h1 hd => step_of_decode_ok hs (State.readWord_of_bytes h0 h1) hd

/-- A decode fault's record names the instruction's address and the fetched word, though PC has moved on (decision D10). -/
theorem State.advancePc_raiseDecode (s : State) (e : DecodeError) :
    s.advancePc.raiseDecode e =
      s.advancePc.latch ⟨decodeCause e.kind, s.reg .pc, s.fetch, zext16 e.value⟩ := by
  rw [State.raiseDecode, State.raise, State.advancePc_faultRecord]

/-- Settles O6: the step is the decode fault, whose record is made as before the PC advance. -/
theorem decodeFaultLeavesPcAdvanced : Obligations.DecodeFaultLeavesPcAdvanced := by
  intro s w e hs hf hd
  have hcause : decodeCause e.kind = if e.kind = .unknownOpcode then .unknownOpcode else .badRegister := by
    cases e.kind <;> rfl
  rw [step_of_decode_error hs hf hd, State.advancePc_raiseDecode, hf, hcause]
  rfl

/-- Settles O7: the latch is looked at before anything else. -/
theorem faultedStepReturnsSameRecord : Obligations.FaultedStepReturnsSameRecord :=
  fun _ _ h => ⟨step_of_fault h, by rw [stepResponse, step_of_fault h]⟩

/-- Settles O8: the running handler is looked at right after the latch. -/
theorem nestedStepIsRefused : Obligations.NestedStepIsRefused :=
  fun _ _ hf hr => ⟨step_of_running hf hr, by rw [stepResponse, step_of_running hf hr]⟩

/-- Settles O20: Nop's body is the identity. -/
theorem nopCompletesWithNoEffect : Obligations.NopCompletesWithNoEffect := exec_nop

/-! A placed table word (20_memory.md section 4). -/

/-- With both bytes at PC in bounds, placing a table word is storing its word there. -/
theorem State.withFetchWord_of_lt {s : State} (h : (s.reg .pc).toNat + 1 < s.params.memSize.val) (nbits w : Nat) :
    s.withFetchWord nbits w = s.setMem (storeWord s.mem (s.reg .pc).toNat (tableWord nbits w)) := by
  have h0 := s.writeByte_of_lt (s.reg .pc).toNat (lowByte (tableWord nbits w)) (by omega)
  have h1 := (s.setMem (memStore s.mem (s.reg .pc).toNat (lowByte (tableWord nbits w)))).writeByte_of_lt
    ((s.reg .pc).toNat + 1) (highByte (tableWord nbits w)) h
  simp only [State.withFetchWord, h0, WriteResult.state, h1]
  rfl

/-- The table word's two bytes decode as the word does. -/
theorem decode_of_decodeTableWord {nbits w : Nat} {i : Instr} (h : decodeTableWord nbits w = some i) :
    decode (tableWord nbits w) = .ok i := by
  unfold decodeTableWord at h
  rw [decodeBytes, joinBytes_low_high] at h
  split at h
  · rename_i j hd
    cases h
    exact hd
  · cases h

/-- Settles O4: the word placed is the word the step fetches, and placing it left the machine ready and PC where it was. -/
theorem placedTableWordIsRun : Obligations.PlacedTableWordIsRun := by
  intro s w i hs hinv hlt hd
  rw [State.withFetchWord_of_lt hlt]
  have hfetch : (s.setMem (storeWord s.mem (s.reg .pc).toNat (tableWord 16 w))).fetch = some (tableWord 16 w) :=
    readWord_storeWord s _ _ hinv.memCanonical hlt
  exact step_of_decode_ok ⟨hs.notFaulted, hs.noneRunning⟩ hfetch (decode_of_decodeTableWord hd)

/-! A step that runs no handler has a next state. -/

theorem exec_next_of_not_runsHandler {i : Instr} {s : State} (h : runsHandler i s = false) : ∃ t, exec i s = .next t := by
  cases i with
  | nop => exact ⟨s, exec_nop s⟩
  | push v =>
    rw [exec_push]
    cases hp : push v s with
    | raised t => exact ⟨t, execPush_of_raised hp⟩
    | done _ t => exact ⟨t, execPush_of_done hp⟩
  | popRegister r =>
    rw [exec_popRegister]
    cases hp : pop s with
    | raised t => exact ⟨t, execPopRegister_of_raised r hp⟩
    | done v t => exact ⟨_, execPopRegister_of_done r hp⟩
  | addStack =>
    rw [exec_addStack]
    cases h1 : pop s with
    | raised t => exact ⟨t, execAddStack_of_first_raised h1⟩
    | done a1 s1 =>
      cases h2 : pop s1 with
      | raised t => exact ⟨t, execAddStack_of_second_raised h1 h2⟩
      | done b1 s2 =>
        obtain ⟨t, h3⟩ := push_done_of_pop_done (a1 + b1) h2
        exact ⟨t, execAddStack_of_done h1 h2 h3⟩
  | addRegister r1 r2 => exact ⟨_, exec_addRegister r1 r2 s⟩
  | signal code => exact ⟨_, execSignal_of_none (handlerAt_eq_none_of_not_runsHandler h)⟩

/-- The PC advance does not touch the handler table. -/
@[simp] theorem runsHandler_advancePc (i : Instr) (s : State) : runsHandler i s.advancePc = runsHandler i s := by
  cases i <;> rfl

/-- Settles O10: both faults before the body are next states, and so is whatever a body without a handler answers. -/
theorem readyStepWithoutHandlerAlwaysProceeds : Obligations.ReadyStepWithoutHandlerAlwaysProceeds := by
  intro s hs hrun
  obtain hstep | ⟨e, hstep⟩ | ⟨i, hi, hstep⟩ := step_cases hs
  · exact ⟨_, hstep⟩
  · exact ⟨_, hstep⟩
  · rw [hstep]
    exact exec_next_of_not_runsHandler ((runsHandler_advancePc i s).trans (hrun i hi))

/-! PC. -/

/-- A body that faults leaves PC alone, even one whose row writes PC: the write comes after the last check. -/
theorem exec_pc_of_fault {i : Instr} {s t : State} {r : FaultRecord} (h : exec i s = .next t)
    (hrun : runsHandler i s = false) (hs : s.fault = none) (ht : t.fault = some r) : t.reg .pc = s.reg .pc := by
  cases i with
  | popRegister q =>
    rcases execPopRegister_next h with hp | ⟨v, u, hp, rfl⟩
    · exact pop_raised_reg hp .pc
    · obtain ⟨_, _, rfl⟩ := pop_done hp
      cases hs.symm.trans ht
  | addRegister r1 r2 =>
    cases h
    cases hs.symm.trans ht
  | nop | push v | addStack | signal code =>
    exact registersNotWrittenAreUnchanged _ s t .pc h hrun (by simp [writtenSlots])

/-- Settles O11: the advance is done before decoding, and after it PC changes only in a body that names PC and completes. -/
theorem pcAdvancesUnlessWritten : Obligations.PcAdvancesUnlessWritten := by
  intro s t w hstep hw hrun
  obtain ⟨hs, _, ⟨hf, _⟩ | ⟨w', hw', ⟨e, _, rfl⟩ | ⟨i, hi, hexec⟩⟩⟩ := step_next hstep
  · cases hf.symm.trans hw
  · rfl
  · obtain ⟨hno, hpc⟩ := hrun i (nextInstr_eq_some_iff.mpr ⟨w', hw', hi⟩)
    rw [← runsHandler_advancePc] at hno
    have hkept : t.reg .pc = s.advancePc.reg .pc := by
      obtain hout | ⟨r, hr⟩ := hpc
      · exact registersNotWrittenAreUnchanged i _ t .pc hexec hno hout
      · exact exec_pc_of_fault hexec hno hs hr
    exact hkept.trans (State.advancePc_pc s)

/-! The fault record. -/

/-- A record latched after a successful fetch names the instruction's address and the fetched word. -/
theorem step_faultRecord_of_fetch {s t : State} {w : Word} {r : FaultRecord} (hw : s.fetch = some w)
    (hstep : step s = .next t) (hr : t.fault = some r) : r.pc = s.reg .pc ∧ r.word = s.fetch := by
  obtain ⟨hnone, _, ⟨hf, _⟩ | ⟨_, _, ⟨e, _, rfl⟩ | ⟨i, _, hexec⟩⟩⟩ := step_next hstep
  · cases hf.symm.trans hw
  · rw [State.advancePc_raiseDecode] at hr
    cases hr
    exact ⟨rfl, rfl⟩
  · obtain hkept | ⟨c, info, _, hlatched⟩ := exec_fault_cases hexec
    · cases (hr.symm.trans hkept).trans hnone
    · rw [State.advancePc_faultRecord] at hlatched
      cases hr.symm.trans hlatched
      exact ⟨rfl, rfl⟩

/-- Settles O12: a failed fetch makes a record without a word, and every other record holds the word fetched. -/
theorem faultRecordNamesFaultingInstruction : Obligations.FaultRecordNamesFaultingInstruction := by
  intro s t r hstep hr
  cases hw : s.fetch with
  | none =>
    obtain ⟨_, _, ⟨_, rfl⟩ | ⟨_, hw', _⟩⟩ := step_next hstep
    · cases hr
      exact ⟨rfl, rfl, by simp⟩
    · cases hw.symm.trans hw'
  | some w =>
    obtain ⟨hpc, hword⟩ := step_faultRecord_of_fetch hw hstep hr
    have hcause := step_cause_ne_fetchFault hw hstep hr
    exact ⟨hpc, hword.trans hw, by simp [hword, hw, hcause]⟩

end Sys2Proof.Machine
end

section
/-! PROOFS. Non-interference (decision D14, 10_state.md R23): a change of the state that lies outside what a step looks at passes
through the step unchanged. -/

namespace Sys2Proof.Machine

/-- `f` changes nothing but what lies outside every field a body without a handler uses: it keeps the registers in `seen`, memory,
handler table, running handler, fault status, parameters and draws, and it commutes with every write of them. -/
structure Outside (f : State → State) (seen : Reg → Prop) : Prop where
  mem : ∀ s, (f s).mem = s.mem
  handlers : ∀ s, (f s).handlers = s.handlers
  running : ∀ s, (f s).running = s.running
  fault : ∀ s, (f s).fault = s.fault
  params : ∀ s, (f s).params = s.params
  draws : ∀ s, (f s).draws = s.draws
  reg : ∀ s r, seen r → (f s).reg r = s.reg r
  setReg : ∀ s r v, seen r → (f s).setReg r v = f (s.setReg r v)
  setMem : ∀ s m, (f s).setMem m = f (s.setMem m)
  latch : ∀ s r, (f s).latch r = f (s.latch r)
  advanceDraws : ∀ s, (f s).advanceDraws = f s.advanceDraws

/-- The halt flag lies outside every register. -/
theorem outside_setHalt (on : Bool) : Outside (fun s => s.setHalt on) (fun _ => True) := by
  constructor <;> intros <;> rfl

/-- A register lies outside the other registers. -/
theorem outside_setReg (q : Reg) (v : Word) : Outside (fun s => s.setReg q v) (fun r => r ≠ q) where
  mem _ := rfl
  handlers _ := rfl
  running _ := rfl
  fault _ := rfl
  params _ := rfl
  draws _ := rfl
  reg s r hr := State.setReg_reg_other s q r v hr
  setReg s r u hr := State.setReg_comm s q r v u hr.symm
  setMem _ _ := rfl
  latch _ _ := rfl
  advanceDraws _ := rfl

/-- A memory write's answer with its state changed by `f`. -/
def mapWrite (f : State → State) : WriteResult → WriteResult
  | .ok t => .ok (f t)
  | .fail t => .fail (f t)

/-- A stack micro-operation's answer with its state changed by `f`. -/
def mapStack {α : Type} (f : State → State) : StackResult α → StackResult α
  | .done v t => .done v (f t)
  | .raised t => .raised (f t)

section
variable {f : State → State} {seen : Reg → Prop} (hf : Outside f seen)
include hf

namespace Outside

theorem readWord (s : State) (a : Nat) : (f s).readWord a = s.readWord a :=
  State.readWord_congr (hf.params s) (by rw [hf.mem]) (by rw [hf.mem])

theorem writeWord (s : State) (a : Nat) (v : Word) : (f s).writeWord a v = mapWrite f (s.writeWord a v) := by
  have hp := hf.params s
  rcases Nat.lt_trichotomy (a + 1) s.params.memSize.val with h | h | h
  · rw [s.writeWord_of_lt a v h, (f s).writeWord_of_lt a v (by rwa [hp]), hf.mem, hf.setMem]
    rfl
  · rw [s.writeWord_of_eq a v h, (f s).writeWord_of_eq a v (by rwa [hp]), hf.mem, hf.setMem, hf.draws]
    split <;> exact congrArg WriteResult.fail (hf.advanceDraws _)
  · rw [s.writeWord_of_ge a v (by omega), (f s).writeWord_of_ge a v (by rw [hp]; omega)]
    rfl

theorem faultRecord (hpc : seen .pc) (s : State) (c : Cause) (info : Word) :
    (f s).faultRecord c info = s.faultRecord c info := by
  simp only [State.faultRecord, hf.reg s .pc hpc, hf.readWord]

theorem raise (hpc : seen .pc) (s : State) (c : Cause) (info : Word) : (f s).raise c info = f (s.raise c info) := by
  rw [State.raise, hf.faultRecord hpc, hf.latch]
  rfl

theorem push (hpc : seen .pc) (hsp : seen .sp) (v : Word) (s : State) :
    Machine.push v (f s) = mapStack f (Machine.push v s) := by
  rw [Machine.push, Machine.push, hf.reg s .sp hsp, hf.writeWord]
  cases s.writeWord (s.reg .sp).toNat v with
  | ok t => exact congrArg (StackResult.done ()) (hf.setReg t .sp _ hsp)
  | fail t =>
    simp only [mapWrite, hf.faultRecord hpc, hf.latch]
    rfl

theorem underflows (hsp : seen .sp) (s : State) : Machine.underflows (f s) = Machine.underflows s := by
  simp only [Machine.underflows, hf.params, hf.reg s .sp hsp]

theorem pop (hpc : seen .pc) (hsp : seen .sp) (s : State) : Machine.pop (f s) = mapStack f (Machine.pop s) := by
  have hu' := hf.underflows hsp s
  have hr' := hf.readWord s
  cases hu : Machine.underflows s with
  | true =>
    rw [pop_of_underflow s hu, pop_of_underflow (f s) (hu'.trans hu), hf.reg s .sp hsp, hf.raise hpc]
    rfl
  | false =>
    cases hr : s.readWord (s.reg .sp - 2).toNat with
    | none =>
      rw [pop_of_fail s hu hr, pop_of_fail (f s) (hu'.trans hu) (by rw [hf.reg s .sp hsp, hr', hr]), hf.reg s .sp hsp,
        hf.raise hpc]
      rfl
    | some v =>
      rw [pop_of_read s v hu hr, pop_of_read (f s) v (hu'.trans hu) (by rw [hf.reg s .sp hsp, hr', hr]),
        hf.reg s .sp hsp, hf.setReg s .sp _ hsp]
      rfl

/-! The bodies: each is a row of micro-operations. -/

theorem execPush (hpc : seen .pc) (hsp : seen .sp) (v : Word) (s : State) :
    Machine.execPush v (f s) = mapNext f (Machine.execPush v s) := by
  rw [Machine.execPush, Machine.execPush, hf.push hpc hsp]
  cases Machine.push v s <;> rfl

theorem execPopRegister (hpc : seen .pc) (hsp : seen .sp) {r : Reg} (hr : seen r) (s : State) :
    Machine.execPopRegister r (f s) = mapNext f (Machine.execPopRegister r s) := by
  rw [Machine.execPopRegister, Machine.execPopRegister, hf.pop hpc hsp]
  cases Machine.pop s with
  | raised t => rfl
  | done v t => exact congrArg Host.Outcome.next (hf.setReg t r v hr)

theorem execAddStack (hpc : seen .pc) (hsp : seen .sp) (s : State) :
    Machine.execAddStack (f s) = mapNext f (Machine.execAddStack s) := by
  rw [Machine.execAddStack, Machine.execAddStack, hf.pop hpc hsp]
  cases Machine.pop s with
  | raised t => rfl
  | done a1 s1 =>
    simp only [mapStack, hf.pop hpc hsp]
    cases Machine.pop s1 with
    | raised t => rfl
    | done b1 s2 =>
      simp only [mapStack, hf.push hpc hsp]
      cases Machine.push (aluAdd a1 b1) s2 <;> rfl

theorem execAddRegister {r1 r2 : Reg} (h1 : seen r1) (h2 : seen r2) (s : State) :
    Machine.execAddRegister r1 r2 (f s) = mapNext f (Machine.execAddRegister r1 r2 s) := by
  rw [Machine.execAddRegister, hf.reg s r1 h1, hf.reg s r2 h2, hf.setReg s r1 _ h1]
  rfl

theorem execSignal (hpc : seen .pc) {code : Byte} {s : State} (h : s.handlerAt code = none) :
    Machine.execSignal code (f s) = mapNext f (Machine.execSignal code s) := by
  have h' : (f s).handlerAt code = none := by rw [State.handlerAt, hf.handlers]; exact h
  rw [execSignal_of_none h, execSignal_of_none h', hf.raise hpc]
  rfl

/-- A change outside PC and the slots an instruction lists passes through its body. -/
theorem exec (hpc : seen .pc) {i : Instr} {s : State} (hrun : runsHandler i s = false)
    (hread : ∀ r ∈ readSlots i, seen r) (hwrite : ∀ r ∈ writtenSlots i, seen r) :
    Machine.exec i (f s) = mapNext f (Machine.exec i s) := by
  cases i with
  | nop => rfl
  | push v => exact hf.execPush hpc (hread .sp (by simp [readSlots])) v s
  | popRegister r =>
    exact hf.execPopRegister hpc (hread .sp (by simp [readSlots])) (hwrite r (by simp [writtenSlots])) s
  | addStack => exact hf.execAddStack hpc (hread .sp (by simp [readSlots])) s
  | addRegister r1 r2 =>
    exact hf.execAddRegister (hread r1 (by simp [readSlots])) (hread r2 (by simp [readSlots])) s
  | signal code => exact hf.execSignal hpc (handlerAt_eq_none_of_not_runsHandler hrun)

/-! The cycle around the body. -/

theorem fetch (hpc : seen .pc) (s : State) : (f s).fetch = s.fetch := by
  rw [State.fetch, hf.readWord, hf.reg s .pc hpc]
  rfl

theorem advancePc (hpc : seen .pc) (s : State) : (f s).advancePc = f s.advancePc := by
  rw [State.advancePc, hf.reg s .pc hpc, hf.setReg s .pc _ hpc]
  rfl

theorem raiseFetch (hpc : seen .pc) (s : State) : (f s).raiseFetch = f s.raiseFetch := by
  rw [State.raiseFetch, hf.reg s .pc hpc, hf.latch]
  rfl

/-- A change outside PC and the slots the next instruction lists passes through the step. -/
theorem step (hpc : seen .pc) {s : State}
    (hnext : ∀ i, nextInstr s = some i →
      runsHandler i s = false ∧ (∀ r ∈ readSlots i, seen r) ∧ ∀ r ∈ writtenSlots i, seen r) :
    Machine.step (f s) = mapNext f (Machine.step s) := by
  cases hfault : s.fault with
  | some r =>
    rw [step_of_fault hfault, step_of_fault ((hf.fault s).trans hfault)]
    rfl
  | none =>
    cases hrunning : s.running with
    | some g =>
      rw [step_of_running hfault hrunning, step_of_running ((hf.fault s).trans hfault) ((hf.running s).trans hrunning)]
      rfl
    | none =>
      have hs : Ready s := ⟨hfault, hrunning⟩
      have hs' : Ready (f s) := ⟨(hf.fault s).trans hfault, (hf.running s).trans hrunning⟩
      have hfetch' := hf.fetch hpc s
      cases hw : s.fetch with
      | none =>
        rw [step_of_fetch_none hs hw, step_of_fetch_none hs' (hfetch'.trans hw), hf.raiseFetch hpc]
        rfl
      | some w =>
        cases hd : decode w with
        | error e =>
          rw [step_of_decode_error hs hw hd, step_of_decode_error hs' (hfetch'.trans hw) hd, hf.advancePc hpc,
            State.raiseDecode, hf.raise hpc]
          rfl
        | ok i =>
          obtain ⟨hrun, hread, hwrite⟩ := hnext i (nextInstr_eq_some_iff.mpr ⟨w, hw, hd⟩)
          rw [step_of_decode_ok hs hw hd, step_of_decode_ok hs' (hfetch'.trans hw) hd, hf.advancePc hpc]
          exact hf.exec hpc ((runsHandler_advancePc i s).trans hrun) hread hwrite

end Outside
end

/-- Settles O9: the halt flag lies outside everything the cycle and a body without a handler look at. -/
theorem coreIgnoresHaltFlag : Obligations.CoreIgnoresHaltFlag :=
  fun _ on hrun => (outside_setHalt on).step trivial fun i hi => ⟨hrun i hi, fun _ _ => trivial, fun _ _ => trivial⟩

/-- Settles O18: a slot that is not PC and is not listed lies outside the slots the step looks at. -/
theorem unlistedSlotsAreNeitherReadNorWritten : Obligations.UnlistedSlotsAreNeitherReadNorWritten := by
  intro s q v hpc hlisted
  refine (outside_setReg q v).step hpc.symm fun i hi => ?_
  obtain ⟨hrun, hread, hwrite⟩ := hlisted i hi
  exact ⟨hrun, fun r hr => ne_of_mem_of_not_mem hr hread, fun r hr => ne_of_mem_of_not_mem hr hwrite⟩

end Sys2Proof.Machine
end

section
/-! PROOFS. Word accesses that fail (20_memory.md R56, R57): when they do, and what a failed write leaves. -/

namespace Sys2Proof.Machine

theorem State.exists_readWord_iff (s : State) (a : Nat) :
    (∃ w, s.readWord a = some w) ↔ a + 1 < s.params.memSize.val :=
  ⟨fun ⟨_, h⟩ => (State.readWord_some h).1, fun h => ⟨_, s.readWord_of_lt a h⟩⟩

theorem State.exists_writeWord_ok_iff (s : State) (a : Nat) (v : Word) :
    (∃ t, s.writeWord a v = .ok t) ↔ a + 1 < s.params.memSize.val :=
  ⟨fun ⟨_, h⟩ => (State.writeWord_ok h).1, fun h => ⟨_, s.writeWord_of_lt a v h⟩⟩

theorem State.exists_writeWord_fail (s : State) (a : Nat) (v : Word) (h : s.params.memSize.val ≤ a + 1) :
    ∃ t, s.writeWord a v = .fail t := by
  rcases Nat.eq_or_lt_of_le h with heq | hlt
  · exact ⟨_, s.writeWord_of_eq a v heq.symm⟩
  · exact ⟨_, s.writeWord_of_ge a v (Nat.le_of_lt_succ hlt)⟩

/-- A failed word write does nothing when its address is out of bounds; otherwise it uses a draw, and its low byte lands or not. -/
theorem State.writeWord_fail {s t : State} {a : Nat} {v : Word} (h : s.writeWord a v = .fail t) :
    (s.params.memSize.val ≤ a ∧ t = s) ∨
      (a < s.params.memSize.val ∧
        (t = s.advanceDraws ∨ t = (s.setMem (memStore s.mem a (lowByte v))).advanceDraws)) := by
  rcases Nat.lt_trichotomy (a + 1) s.params.memSize.val with hlt | heq | hgt
  · rw [s.writeWord_of_lt a v hlt] at h
    cases h
  · rw [s.writeWord_of_eq a v heq] at h
    cases h
    refine .inr ⟨by omega, ?_⟩
    split
    · exact .inr rfl
    · exact .inl rfl
  · rw [s.writeWord_of_ge a v (by omega)] at h
    cases h
    exact .inl ⟨by omega, rfl⟩

theorem State.writeWord_fail_memStep {s t : State} {a : Nat} {v : Word} (h : s.writeWord a v = .fail t) : MemStep s t := by
  have hstep := memStep_writeWord s a v
  rwa [h] at hstep

theorem State.writeWord_fail_readByte_other {s t : State} {a b : Nat} {v : Word} (h : s.writeWord a v = .fail t)
    (hb : b ≠ a) : t.readByte b = s.readByte b := by
  rcases State.writeWord_fail h with ⟨_, rfl⟩ | ⟨_, rfl | rfl⟩
  · rfl
  · rfl
  · exact s.readByte_memStore_other a b _ hb

theorem State.writeWord_fail_eq {s t : State} {a : Nat} {v : Word} (h : s.writeWord a v = .fail t)
    (ha : s.params.memSize.val ≤ a) : t = s := by
  rcases State.writeWord_fail h with ⟨_, ht⟩ | ⟨hlt, _⟩
  · exact ht
  · omega

theorem State.writeWord_fail_readByte_same {s t : State} {a : Nat} {v : Word} (hw : Memory.wf s.mem = true)
    (h : s.writeWord a v = .fail t) : t.readByte a = s.readByte a ∨ t.readByte a = some (lowByte v) := by
  rcases State.writeWord_fail h with ⟨_, rfl⟩ | ⟨hlt, rfl | rfl⟩
  · exact .inl rfl
  · exact .inl rfl
  · exact .inr (s.readByte_memStore_same a _ hw hlt)

/-- Settles O44: both accesses test the same two bounds, and `State.writeWord_fail` says what a failed write leaves. -/
theorem wordWriteFailsWithoutBothBytes : Obligations.WordWriteFailsWithoutBothBytes := by
  refine fun s a v hw => ⟨s.exists_readWord_iff a, s.exists_writeWord_ok_iff a v, fun t h => ?_⟩
  have hstep := State.writeWord_fail_memStep h
  exact ⟨fun b hb => State.writeWord_fail_readByte_other h hb, State.writeWord_fail_eq h,
    State.writeWord_fail_readByte_same hw h, hstep.regs, hstep.fault, hstep.sameHostSide⟩

/-- Settles O45: the address above 0xFFFF is out of bounds for every legal MEM_SIZE. -/
theorem wordAtTopAddressAlwaysFails : Obligations.WordAtTopAddressAlwaysFails :=
  fun s v => ⟨s.readWord_of_ge _ s.params.memSize.le, s.exists_writeWord_fail _ v s.params.memSize.le⟩

end Sys2Proof.Machine
end

section
/-! PROOFS. The stack instructions and AddRegister (41_stack.md, 42_register.md): what each leaves when it completes, with its
frame, and what a failing access leaves. -/

namespace Sys2Proof.Machine

/-! A word stored and SP moved: what Push and AddStack leave. -/

theorem State.readByte_storeWord_other (s : State) (a b : Nat) (v : Word) (h0 : b ≠ a) (h1 : b ≠ a + 1) :
    (s.setMem (storeWord s.mem a v)).readByte b = s.readByte b := by
  simp only [State.readByte, State.setMem_valid, State.setMem_mem, memLookup_storeWord_other _ _ _ _ h0 h1]

/-- A register write and a new memory commute. -/
theorem State.setReg_setMem (s : State) (r : Reg) (v : Word) (m : Memory) :
    (s.setReg r v).setMem m = (s.setMem m).setReg r v := rfl

/-- From `s` to `t` the word at `a` has become `v` and SP has become `p`, and nothing else has changed. -/
structure WordStored (a : Nat) (v p : Word) (s t : State) : Prop where
  word : t.readWord a = some v
  sp : t.reg .sp = p
  regs : ∀ q, q ≠ .sp → t.reg q = s.reg q
  bytes : ∀ b, b ≠ a → b ≠ a + 1 → t.readByte b = s.readByte b
  control : SameControl s t

theorem wordStored {s : State} {a : Nat} (v p : Word) (hw : Memory.wf s.mem = true)
    (h : a + 1 < s.params.memSize.val) : WordStored a v p s ((s.setMem (storeWord s.mem a v)).setReg .sp p) where
  word := readWord_storeWord s a v hw h
  sp := State.setReg_reg_same _ .sp p
  regs q hq := State.setReg_reg_other _ .sp q p hq
  bytes b h0 h1 := s.readByte_storeWord_other a b v h0 h1
  control := ⟨⟨rfl, rfl, rfl, rfl⟩, rfl, rfl⟩

/-! Push -/

theorem push_done_wordStored {v : Word} {s t : State} (hw : Memory.wf s.mem = true) (h : push v s = .done () t) :
    WordStored (s.reg .sp).toNat v (s.reg .sp + 2) s t := by
  obtain ⟨hlt, rfl⟩ := push_done h
  exact wordStored v _ hw hlt

theorem exec_push_wordStored {s : State} (v : Word) (hw : Memory.wf s.mem = true)
    (h : (s.reg .sp).toNat + 1 < s.params.memSize.val) :
    ∃ t, exec (.push v) s = .next t ∧ WordStored (s.reg .sp).toNat v (s.reg .sp + 2) s t :=
  ⟨_, execPush_of_done (push_of_lt v s h), wordStored v _ hw h⟩

theorem push_of_writeWord_fail {v : Word} {s u : State} (h : s.writeWord (s.reg .sp).toNat v = .fail u) :
    push v s = .raised (u.latch (s.faultRecord .memWriteFault (s.reg .sp))) := by
  rw [push, h]

/-- Settles O21: the word stored reads back as its two bytes, and the rest is the frame of a stored word. -/
theorem pushStoresValueAtSp : Obligations.PushStoresValueAtSp := by
  intro v s hw hlt
  obtain ⟨t, hexec, ht⟩ := exec_push_wordStored v hw hlt
  obtain ⟨hlow, hhigh⟩ := State.readByte_of_readWord ht.word
  exact ⟨t, hexec, hlow, hhigh, ht.sp, ht.regs, ht.bytes, ht.control⟩

/-- Settles O22: the state is what the failed word write left, with the record latched. -/
theorem pushOutOfBoundsTakesWriteFault : Obligations.PushOutOfBoundsTakesWriteFault := by
  intro v s hw hge
  obtain ⟨u, hu⟩ := s.exists_writeWord_fail (s.reg .sp).toNat v hge
  have hstep := State.writeWord_fail_memStep hu
  refine ⟨_, execPush_of_raised (push_of_writeWord_fail hu), rfl, hstep.reg, ?host, ?others, ?outside, fun _ => ?atSp⟩
  case host => exact hstep.sameHostSide.trans (sameHostSide_latch u _)
  case others => exact fun a ha => (State.latch_readByte u _ a).trans (State.writeWord_fail_readByte_other hu ha)
  case outside =>
    intro hout a
    rw [State.writeWord_fail_eq hu hout, State.latch_readByte]
  case atSp =>
    rw [State.latch_readByte]
    exact State.writeWord_fail_readByte_same hw hu

/-- Settles O23: PC keeps its value, and the word there is the word just stored. -/
theorem pushIsSeenByNextFetch : Obligations.PushIsSeenByNextFetch := by
  intro v s hw hlt hpc
  obtain ⟨t, hexec, ht⟩ := exec_push_wordStored v hw hlt
  refine ⟨t, hexec, ?_⟩
  rw [State.fetch, ht.regs .pc (by decide), ← hpc, ht.word]

/-- Settles O24: the pop reads two below the pushed SP, where the push has stored its word. -/
theorem popAfterPushReturnsValue : Obligations.PopAfterPushReturnsValue := by
  intro v s t hw hpush
  have ht := push_done_wordStored hw hpush
  have hback : t.reg .sp - 2 = s.reg .sp := by rw [ht.sp, BitVec.add_sub_cancel]
  refine ⟨fun hu => ⟨_, pop_of_read t v hu ?_, ?_⟩, fun ⟨hcheck, hsp⟩ => ?_⟩
  · rw [hback, ht.word]
  · rw [State.setReg_reg_same, hback]
  · have hzero : t.reg .sp = 0 := by
      rw [ht.sp, hsp]
      rfl
    have hu : underflows t = true := by
      rw [underflows, ht.control.params, hcheck, hzero]
      rfl
    rw [pop_of_underflow t hu, hzero]

/-! PopRegister -/

theorem underflows_eq_true_iff {s : State} :
    underflows s = true ↔ s.params.stackUnderflowCheck = true ∧ (s.reg .sp).toNat < 2 := by
  simp [underflows]

/-- Settles O25: SP is written by the pop and the register after it, so a popped SP ends as the word. -/
theorem popRegisterLoadsTopOfStack : Obligations.PopRegisterLoadsTopOfStack := by
  intro r s v hu hread
  refine ⟨_, execPopRegister_of_done r (pop_of_read s v hu hread), State.setReg_reg_same _ r v, fun hr => ?sp,
    fun q hq hsp => ?others, fun _ => rfl, ⟨⟨rfl, rfl, rfl, rfl⟩, rfl, rfl⟩⟩
  case sp => rw [State.setReg_reg_other _ r .sp v hr.symm, State.setReg_reg_same]
  case others => rw [State.setReg_reg_other _ r q v hq, State.setReg_reg_other s .sp q _ hsp]

/-- Settles O26: either check stops the pop before it has changed anything. -/
theorem popRegisterFaultChangesOnlyFaultStatus : Obligations.PopRegisterFaultChangesOnlyFaultStatus := by
  refine fun r s => ⟨fun hu => ?underflow, fun hu hout => ?readFault⟩
  case underflow => exact execPopRegister_of_raised r (pop_of_underflow s (underflows_eq_true_iff.mpr hu))
  case readFault =>
    have hu' : underflows s = false := Bool.eq_false_iff.mpr fun h => hu (underflows_eq_true_iff.mp h)
    exact execPopRegister_of_raised r (pop_of_fail s hu' (s.readWord_of_ge _ hout))

/-- Settles O27: the body runs on the state after the PC advance, where the stack is as before, and PC takes the word. -/
theorem popRegisterPcJumpsToPoppedValue : Obligations.PopRegisterPcJumpsToPoppedValue := by
  intro s v hs hi hu hread
  obtain ⟨t, hexec, hpc, hsp, _, hbytes, hcontrol⟩ := popRegisterLoadsTopOfStack .pc s.advancePc v hu hread
  refine ⟨t, (step_of_nextInstr hs hi).trans hexec, hpc, hsp (by decide), hcontrol.fault.trans hs.notFaulted, ?_⟩
  rw [State.fetch, hpc]
  exact State.readWord_of_same_bytes hcontrol.params hbytes _

/-! AddStack -/

/-- A pop with SP at least 2 passes its check. -/
theorem underflows_eq_false_of_le {s : State} (h : s.params.stackUnderflowCheck = true → 2 ≤ (s.reg .sp).toNat) :
    underflows s = false := by
  refine Bool.eq_false_iff.mpr fun hu => ?_
  obtain ⟨hcheck, hlt⟩ := underflows_eq_true_iff.mp hu
  exact absurd (h hcheck) (Nat.not_le.mpr hlt)

/-- Two good pops and a push: SP ends two lower, and the sum stands where the second word was. -/
theorem exec_addStack_wordStored {s : State} {a1 b1 : Word} (hw : Memory.wf s.mem = true)
    (hcheck : s.params.stackUnderflowCheck = true → 4 ≤ (s.reg .sp).toNat)
    (ha : s.readWord (s.reg .sp - 2).toNat = some a1) (hb : s.readWord (s.reg .sp - 4).toNat = some b1) :
    ∃ t, exec .addStack s = .next t ∧ WordStored (s.reg .sp - 4).toNat (a1 + b1) (s.reg .sp - 2) s t := by
  have h1 := pop_of_read s a1 (underflows_eq_false_of_le fun h => by have := hcheck h; omega) ha
  have h2 : pop (s.setReg .sp (s.reg .sp - 2)) = .done b1 (s.setReg .sp (s.reg .sp - 4)) := by
    have hu : underflows (s.setReg .sp (s.reg .sp - 2)) = false := underflows_eq_false_of_le fun h => by
      have hle : 4 ≤ (s.reg .sp).toNat := hcheck h
      rw [State.setReg_reg_same]
      bv_omega
    have hpop := pop_of_read _ b1 hu (by rw [State.setReg_reg_same, sub_two_sub_two]; exact hb)
    rwa [State.setReg_reg_same, sub_two_sub_two, State.setReg_setReg_same] at hpop
  have h3 := push_of_lt (a1 + b1) (s.setReg .sp (s.reg .sp - 4))
    (by rw [State.setReg_reg_same]; exact (State.readWord_some hb).1)
  rw [State.setReg_reg_same, sub_four_add_two] at h3
  refine ⟨_, execAddStack_of_done h1 h2 h3, ?_⟩
  rw [State.setReg_mem, State.setReg_setMem, State.setReg_setReg_same]
  exact wordStored _ _ hw (State.readWord_some hb).1

/-- Settles O28: the sum wraps modulo 65536, and the rest is the frame of a stored word. -/
theorem addStackReplacesTwoWordsByTheirSum : Obligations.AddStackReplacesTwoWordsByTheirSum := by
  intro s a1 b1 hw hcheck ha hb
  obtain ⟨t, hexec, ht⟩ := exec_addStack_wordStored hw hcheck ha hb
  exact ⟨t, a1 + b1, hexec, ht.word, BitVec.toNat_add a1 b1, ht.sp, ht.regs, ht.bytes, ht.control⟩

/-! AddRegister -/

/-- Settles O31: the body is one register write, of the sum of both values it read before. -/
theorem addRegisterAddsSecondIntoFirst : Obligations.AddRegisterAddsSecondIntoFirst := by
  refine fun r1 r2 s => ⟨_, exec_addRegister r1 r2 s, ?sum, fun q hq => State.setReg_reg_other s r1 q _ hq,
    SameBytes.setReg s r1 _, ⟨⟨rfl, rfl, rfl, rfl⟩, rfl, rfl⟩⟩
  case sum => rw [State.setReg_reg_same, aluAdd_eq, BitVec.toNat_add]

/-- Settles O34: the body reads PC after the advance, and the next fetch reads at the sum. -/
theorem addRegisterPcJumpsFromNextInstruction : Obligations.AddRegisterPcJumpsFromNextInstruction := by
  intro s r2 hs hi
  refine ⟨_, (step_of_nextInstr hs hi).trans (exec_addRegister .pc r2 s.advancePc), hs.notFaulted, fun hr => ?relative,
    fun hr => ?double, rfl⟩
  case relative => rw [State.setReg_reg_same, aluAdd_eq, State.advancePc_pc, State.advancePc_other s r2 hr]
  case double =>
    rw [State.setReg_reg_same, aluAdd_eq, hr, State.advancePc_pc]
    exact BitVec.two_mul.symm

end Sys2Proof.Machine
end

section
/-! PROOFS. Signal and its handlers (43_signal.md): the dispatch, what trap entry hands over, and the ends a handler can have. -/

namespace Sys2Proof.Machine

/-! The dispatch. -/

theorem exec_signal_of_some {code : Byte} {g : HandlerId} {s : State} (h : s.handlerAt code = some g) :
    exec (.signal code) s = trap code g s := by
  rw [exec_signal, execSignal_of_some h]

/-- A Signal that has a handler and answers a next state ran a handler that returned. -/
theorem exec_signal_next_of_some {code : Byte} {g : HandlerId} {s t : State} (h : s.handlerAt code = some g)
    (ht : exec (.signal code) s = .next t) :
    (handlerBehaviour g s).ending = .returns ∧
      t = leaveTrap (runActs (handlerBehaviour g s).acts (enterTrap g s)) ∧ HostStep s t :=
  trap_next ((exec_signal_of_some h).symm.trans ht)

/-! The three ends of a handler. -/

theorem exec_signal_of_returns {code : Byte} {g : HandlerId} {s : State} (h : s.handlerAt code = some g)
    (he : (handlerBehaviour g s).ending = .returns) :
    exec (.signal code) s = .next (leaveTrap (runActs (handlerBehaviour g s).acts (enterTrap g s))) :=
  (exec_signal_of_some h).trans (trap_returns he code)

theorem exec_signal_of_never {code : Byte} {g : HandlerId} {s : State} (h : s.handlerAt code = some g)
    (he : (handlerBehaviour g s).ending = .never) : exec (.signal code) s = .fault (.handlerNeverReturns code) := by
  rw [exec_signal_of_some h, trap, he]

theorem exec_signal_of_startsStep {code : Byte} {g : HandlerId} {s : State} (h : s.handlerAt code = some g)
    (he : (handlerBehaviour g s).ending = .startsStep) : exec (.signal code) s = .refused (.nestedStep g) := by
  rw [exec_signal_of_some h, trap, he]

/-! Trap entry hands the machine over as it stands (R163). -/

theorem enterTrap_regs (g : HandlerId) (s : State) : (enterTrap g s).regs = s.regs := by
  rcases enterTrap_cases g s with e | e <;> rw [e] <;> rfl

theorem enterTrap_sameBytes (g : HandlerId) (s : State) : SameBytes s (enterTrap g s) := by
  rcases enterTrap_cases g s with e | e <;> rw [e] <;> exact fun _ => rfl

theorem enterTrap_halt (g : HandlerId) (s : State) : (enterTrap g s).halt = s.halt := by
  rcases enterTrap_cases g s with e | e <;> rw [e] <;> rfl

theorem enterTrap_handlers (g : HandlerId) (s : State) : (enterTrap g s).handlers = s.handlers := by
  rcases enterTrap_cases g s with e | e <;> rw [e] <;> rfl

theorem enterTrap_running (g : HandlerId) (s : State) : (enterTrap g s).running = some g := by
  rcases enterTrap_cases g s with e | e <;> rw [e] <;> rfl

/-! The statements. -/

/-- Settles O35: the record of the dispatch fault is written out. -/
theorem unregisteredSignalTakesDispatchFault : Obligations.UnregisteredSignalTakesDispatchFault :=
  fun code s h => (exec_signal code s).trans (execSignal_of_none h)

/-- Settles O36: the table's entry is dispatched, and its handler's writes are the whole effect. -/
theorem signalRunsRegisteredHandler : Obligations.SignalRunsRegisteredHandler := by
  intro code s h hsome he
  have henter := hostStep_enterTrap h s
  exact ⟨exec_signal_of_returns hsome he, enterTrap_regs h s, enterTrap_sameBytes h s, enterTrap_halt h s,
    enterTrap_handlers h s, henter.params, henter.fault, enterTrap_running h s,
    fun acts hscript => (exec_signal_of_some hsome).trans (trap_script hscript code rfl)⟩

/-- Settles O38: the run is cut at the definition; the writes after it leave the entry alone unless one defines the code again. -/
theorem redefinitionDoesNotChangeRunningHandler : Obligations.RedefinitionDoesNotChangeRunningHandler := by
  intro code c s h g pre rest hsome hb
  refine ⟨_, _, rfl, ?defined, ?running, rfl, ?completes, fun hrest => ?next⟩
  case defined => exact tableLookup_tableDefine_same _ c g
  case running => rw [State.defineHandler_running, runActs_running, enterTrap_running]
  case completes =>
    rw [exec_signal_of_returns hsome (by rw [hb]), hb, runActs_append]
    rfl
  case next =>
    have hentry : (leaveTrap (runActs rest ((runActs pre (enterTrap h s)).defineHandler c g))).handlerAt c = some g :=
      (runActs_handlerAt hrest _).trans (tableLookup_tableDefine_same _ c g)
    exact ⟨hentry, exec_signal_of_some hentry, exec_signal_of_returns hentry⟩

/-- Settles O39: a handler that returns has kept fault status and parameters, and trap return clears the running handler. -/
theorem handlersNeverRaiseACoreFault : Obligations.HandlersNeverRaiseACoreFault := by
  intro code s t h hsome hexec
  obtain ⟨_, rfl, hkeep⟩ := exec_signal_next_of_some hsome hexec
  exact ⟨hkeep.fault, hkeep.params, rfl⟩

/-- Settles O40: a handler has three ends, and the third, like the missing handler, gives a next state. -/
theorem signalStopsOnlyWithItsHandler : Obligations.SignalStopsOnlyWithItsHandler := by
  refine fun code s => ⟨fun h hsome => ⟨exec_signal_of_never hsome, exec_signal_of_startsStep hsome⟩,
    fun hstop => ?stops, ?stopped⟩
  case stops =>
    cases hentry : s.handlerAt code with
    | none => exact absurd (execSignal_of_none hentry) (hstop _)
    | some h =>
      refine ⟨h, rfl, ?_⟩
      cases he : (handlerBehaviour h s).ending with
      | returns => exact absurd (exec_signal_of_returns hentry he) (hstop _)
      | never => exact .inl rfl
      | startsStep => exact .inr rfl
  case stopped =>
    rintro ⟨h, hsome, he⟩ t ht
    rw [(exec_signal_next_of_some hsome ht).1] at he
    rcases he with he | he <;> cases he

end Sys2Proof.Machine
end

section
/-! PROOFS. The copy (20_memory.md R65) and a handler's writes (43_signal.md R163): which bytes a copy leaves where, byte by byte in
ascending order. -/

namespace Sys2Proof.Machine

/-! One byte of a copy. -/

theorem State.copyBytes_succ_of_lt {src dst : Nat} {s : State} (hs : src < s.params.memSize.val)
    (hd : dst < s.params.memSize.val) (len : Nat) :
    State.copyBytes src dst (len + 1) s =
      State.copyBytes (src + 1) (dst + 1) len (s.setMem (memStore s.mem dst (memLookup s.mem src))) := by
  simp only [State.copyBytes, s.readByte_of_lt src hs, s.writeByte_of_lt dst _ hd]

theorem State.copyBytes_succ_of_out {src dst : Nat} {s : State}
    (h : ¬(src < s.params.memSize.val ∧ dst < s.params.memSize.val)) (len : Nat) :
    State.copyBytes src dst (len + 1) s = .fail s := by
  by_cases hs : src < s.params.memSize.val
  · have hd : s.params.memSize.val ≤ dst := Nat.le_of_not_lt fun hd => h ⟨hs, hd⟩
    simp only [State.copyBytes, s.readByte_of_lt src hs, s.writeByte_of_ge dst _ hd]
  · simp only [State.copyBytes, s.readByte_of_ge src (Nat.le_of_not_lt hs)]

/-! When a copy succeeds, and what a failed one leaves. -/

theorem State.exists_copyBytes_ok_iff (src dst len : Nat) (s : State) :
    (∃ t, State.copyBytes src dst len s = .ok t) ↔
      ∀ k, k < len → src + k < s.params.memSize.val ∧ dst + k < s.params.memSize.val := by
  induction len generalizing src dst s with
  | zero => exact ⟨fun _ k hk => absurd hk (Nat.not_lt_zero k), fun _ => ⟨s, rfl⟩⟩
  | succ len ih =>
    constructor
    · rintro ⟨t, ht⟩ k hk
      obtain ⟨hs, hd, hrest⟩ := State.copyBytes_succ_ok ht
      cases k with
      | zero => exact ⟨hs, hd⟩
      | succ k =>
        have hk' := (ih (src + 1) (dst + 1) _).mp ⟨t, hrest⟩ k (Nat.lt_of_succ_lt_succ hk)
        rwa [State.setMem_params, Nat.add_right_comm src, Nat.add_right_comm dst] at hk'
    · intro hin
      obtain ⟨hs, hd⟩ := hin 0 (Nat.succ_pos len)
      rw [State.copyBytes_succ_of_lt (src := src) (dst := dst) hs hd]
      refine (ih (src + 1) (dst + 1) _).mpr fun k hk => ?_
      rw [Nat.add_right_comm src, Nat.add_right_comm dst]
      exact hin (k + 1) (Nat.succ_lt_succ hk)

/-- A copy that fails leaves what the copy of the bytes before its first index out of bounds leaves. -/
theorem State.copyBytes_fail {src dst len : Nat} {s t : State} (h : State.copyBytes src dst len s = .fail t) :
    ∃ k, k < len ∧ ¬(src + k < s.params.memSize.val ∧ dst + k < s.params.memSize.val) ∧
      State.copyBytes src dst k s = .ok t := by
  induction len generalizing src dst s with
  | zero => cases h
  | succ len ih =>
    by_cases hin : src < s.params.memSize.val ∧ dst < s.params.memSize.val
    · obtain ⟨hs, hd⟩ := hin
      rw [State.copyBytes_succ_of_lt hs hd] at h
      obtain ⟨k, hk, hout, hok⟩ := ih h
      rw [State.setMem_params, Nat.add_right_comm src, Nat.add_right_comm dst] at hout
      exact ⟨k + 1, Nat.succ_lt_succ hk, hout, (State.copyBytes_succ_of_lt hs hd k).trans hok⟩
    · rw [State.copyBytes_succ_of_out hin] at h
      cases h
      exact ⟨0, Nat.succ_pos len, hin, rfl⟩

/-! Which byte a copy that succeeds puts where. -/

/-- The first byte of a copy stands in its target once the copy is done: later bytes go to higher addresses. -/
theorem State.copyBytes_first {src dst len : Nat} {s t : State} (hw : Memory.wf s.mem = true)
    (h : State.copyBytes src dst (len + 1) s = .ok t) : memLookup t.mem dst = memLookup s.mem src := by
  obtain ⟨_, _, hrest⟩ := State.copyBytes_succ_ok h
  rw [(State.copyBytes_ok_cases hrest).2 dst (.inl (Nat.lt_succ_self dst))]
  exact memLookup_memStore_same _ _ _ hw

/-- Onto a lower or a disjoint range, no source byte is overwritten before it is read. -/
theorem State.copyBytes_from_before {src dst len : Nat} {s t : State} (hw : Memory.wf s.mem = true)
    (h : State.copyBytes src dst len s = .ok t) (hor : dst ≤ src ∨ src + len ≤ dst) {k : Nat} (hk : k < len) :
    memLookup t.mem (dst + k) = memLookup s.mem (src + k) := by
  induction len generalizing src dst s k with
  | zero => exact absurd hk (Nat.not_lt_zero k)
  | succ len ih =>
    cases k with
    | zero => exact State.copyBytes_first hw h
    | succ k =>
      obtain ⟨_, _, hrest⟩ := State.copyBytes_succ_ok h
      have hlookup := ih (memStore_wf _ _ _ hw) hrest (by omega) (Nat.lt_of_succ_lt_succ hk)
      rw [Nat.add_right_comm dst, Nat.add_right_comm src, State.setMem_mem] at hlookup
      exact hlookup.trans (memLookup_memStore_other _ _ _ _ (by omega))

/-- Onto a higher range, each byte is read after the lower ones were written, so the copy repeats bytes. -/
theorem State.copyBytes_from_after {src dst len : Nat} {s t : State} (hw : Memory.wf s.mem = true)
    (h : State.copyBytes src dst len s = .ok t) (hlt : src < dst) {k : Nat} (hk : k < len) :
    memLookup t.mem (dst + k) = memLookup t.mem (src + k) := by
  induction len generalizing src dst s k with
  | zero => exact absurd hk (Nat.not_lt_zero k)
  | succ len ih =>
    cases k with
    | zero => exact (State.copyBytes_first hw h).trans ((State.copyBytes_ok_cases h).2 src (.inl hlt)).symm
    | succ k =>
      obtain ⟨_, _, hrest⟩ := State.copyBytes_succ_ok h
      have hlookup := ih (memStore_wf _ _ _ hw) hrest (Nat.succ_lt_succ hlt) (Nat.lt_of_succ_lt_succ hk)
      rwa [Nat.add_right_comm dst, Nat.add_right_comm src] at hlookup

/-! The same, as byte reads. -/

theorem State.readByte_congr {s t : State} {a b : Nat} (ha : a < t.params.memSize.val) (hb : b < s.params.memSize.val)
    (h : memLookup t.mem a = memLookup s.mem b) : t.readByte a = s.readByte b := by
  rw [State.readByte_of_lt t a ha, State.readByte_of_lt s b hb, h]

theorem State.copyBytes_sameControl {src dst len : Nat} {s t : State} (h : State.copyBytes src dst len s = .ok t) :
    t.regs = s.regs ∧ SameControl s t := by
  rw [(State.copyBytes_ok_cases h).1]
  exact ⟨rfl, sameControl_setMem s _⟩

theorem State.copyBytes_readByte_outside {src dst len a : Nat} {s t : State}
    (h : State.copyBytes src dst len s = .ok t) (ha : a < dst ∨ dst + len ≤ a) : t.readByte a = s.readByte a := by
  have hparams := (State.copyBytes_sameControl h).2.params
  rw [State.readByte, State.valid, hparams, (State.copyBytes_ok_cases h).2 a ha]
  rfl

theorem State.copyBytes_readByte_before {src dst len k : Nat} {s t : State} (hw : Memory.wf s.mem = true)
    (h : State.copyBytes src dst len s = .ok t) (hor : dst ≤ src ∨ src + len ≤ dst) (hk : k < len) :
    t.readByte (dst + k) = s.readByte (src + k) := by
  obtain ⟨hs, hd⟩ := (State.exists_copyBytes_ok_iff src dst len s).mp ⟨t, h⟩ k hk
  have hparams := (State.copyBytes_sameControl h).2.params
  exact State.readByte_congr (by rwa [hparams]) hs (State.copyBytes_from_before hw h hor hk)

theorem State.copyBytes_readByte_after {src dst len k : Nat} {s t : State} (hw : Memory.wf s.mem = true)
    (h : State.copyBytes src dst len s = .ok t) (hlt : src < dst) (hk : k < len) :
    t.readByte (dst + k) = t.readByte (src + k) := by
  obtain ⟨hs, hd⟩ := (State.exists_copyBytes_ok_iff src dst len s).mp ⟨t, h⟩ k hk
  have hparams := (State.copyBytes_sameControl h).2.params
  exact State.readByte_congr (by rwa [hparams]) (by rwa [hparams]) (State.copyBytes_from_after hw h hlt hk)

/-- Settles O46: the copy is an induction on its length, and each byte is read from the memory that the bytes before it left. -/
theorem copyStopsAtFirstFailureWithoutRollback : Obligations.CopyStopsAtFirstFailureWithoutRollback := by
  refine fun src dst len s => ⟨State.exists_copyBytes_ok_iff src dst len s, fun t => State.copyBytes_fail,
    fun t hw h => ?_⟩
  obtain ⟨hregs, hcontrol⟩ := State.copyBytes_sameControl h
  exact ⟨hregs, hcontrol, fun a => State.copyBytes_readByte_outside h,
    fun hor k => State.copyBytes_readByte_before hw h hor, fun hlt k => State.copyBytes_readByte_after hw h hlt⟩

/-! A handler's memory writes. -/

theorem runAct_writeByte_of_lt {a : Word} {s : State} (v : Byte) (h : a.toNat < s.params.memSize.val) :
    runAct (.writeByte a v) s = s.setMem (memStore s.mem a.toNat v) :=
  congrArg WriteResult.state (s.writeByte_of_lt a.toNat v h)

theorem runAct_writeByte_of_ge {a : Word} {s : State} (v : Byte) (h : s.params.memSize.val ≤ a.toNat) :
    runAct (.writeByte a v) s = s :=
  congrArg WriteResult.state (s.writeByte_of_ge a.toNat v h)

theorem runAct_writeWord_of_lt {a : Word} {s : State} (v : Word) (h : a.toNat + 1 < s.params.memSize.val) :
    runAct (.writeWord a v) s = s.setMem (storeWord s.mem a.toNat v) :=
  congrArg WriteResult.state (s.writeWord_of_lt a.toNat v h)

theorem runAct_writeWord_of_ge {a : Word} {s : State} (v : Word) (h : s.params.memSize.val ≤ a.toNat) :
    runAct (.writeWord a v) s = s :=
  congrArg WriteResult.state (s.writeWord_of_ge a.toNat v h)

theorem runAct_copy_of_ok {src dst : Word} {len : Nat} {s t : State}
    (h : State.copyBytes src.toNat dst.toNat len s = .ok t) : runAct (.copy src dst len) s = t :=
  congrArg WriteResult.state h

/-- Settles O37: each of a handler's writes is one of the machine's own operations, with that operation's read-back and frame. -/
theorem handlerWritesReachTheWholeMachine : Obligations.HandlerWritesReachTheWholeMachine := by
  refine fun s hw => ⟨fun r v => ⟨State.setReg_reg_same s r v, fun q => State.setReg_reg_other s r q v⟩,
    fun dst src => State.setReg_reg_same s dst _, fun a v => ⟨fun hlt => ?byte, runAct_writeByte_of_ge v⟩,
    fun a v => ⟨fun hlt => ?word, runAct_writeWord_of_ge v⟩, fun src dst len hin => ?copy, fun on => rfl,
    fun code h => ⟨tableLookup_tableDefine_same _ code h, fun d => tableLookup_tableDefine_other _ code d h⟩⟩
  case byte =>
    rw [runAct_writeByte_of_lt v hlt]
    exact s.readByte_memStore_same a.toNat v hw hlt
  case word =>
    rw [runAct_writeWord_of_lt v hlt]
    exact readWord_storeWord s a.toNat v hw hlt
  case copy =>
    obtain ⟨t, ht⟩ := (State.exists_copyBytes_ok_iff src.toNat dst.toNat len s).mpr hin
    rw [runAct_copy_of_ok ht]
    exact ⟨fun hor k => State.copyBytes_readByte_before hw ht hor, fun a => State.copyBytes_readByte_outside ht⟩

end Sys2Proof.Machine
end

section
/-! PROOFS. The machine as constructed, the program loaded into it, and the assembler's text (10_state.md section 6, 20_memory.md
section 4, 30_encoding.md section 5). -/

namespace Sys2Proof.Machine

/-! Construction (R35). -/

theorem State.construct_reg (p : Params) (r : Reg) : (State.construct p).reg r = 0 := by
  cases r <;> rfl

theorem State.construct_readByte (p : Params) (a : Nat) :
    (State.construct p).readByte a = if a < p.memSize.val then some 0 else none := by
  split
  · rename_i hlt
    exact (State.construct p).readByte_of_lt a hlt
  · rename_i hge
    exact (State.construct p).readByte_of_ge a (Nat.le_of_not_lt hge)

/-- Settles O1: reset is construction with 8192 bytes. -/
theorem resetHoldsConstructionValues : Obligations.ResetHoldsConstructionValues :=
  ⟨State.construct_reg Config.hardware, State.construct_readByte Config.hardware, fun _ => rfl, rfl, rfl, rfl⟩

/-- Settles O2: memory and handler table are empty lists at reset. -/
theorem resetMeetsInvariant : Obligations.ResetMeetsInvariant where
  memCanonical := rfl
  memInside _ hc := absurd hc List.not_mem_nil
  tableCanonical := rfl
  noneRunning := rfl

/-! Program load (R66). -/

/-- The memory after a program's bytes have been stored in order from address `a` upward. -/
def storeBytes : List Byte → Nat → Memory → Memory
  | [], _, m => m
  | b :: rest, a, m => storeBytes rest (a + 1) (memStore m a b)

theorem loadProgram_of_fits {program : List Byte} {a : Nat} {s : State}
    (h : a + program.length ≤ s.params.memSize.val) :
    loadProgram program a s = .ok (s.setMem (storeBytes program a s.mem)) := by
  induction program generalizing a s with
  | nil => rfl
  | cons b rest ih =>
    rw [List.length_cons] at h
    simp only [loadProgram, s.writeByte_of_lt a b (by omega)]
    exact ih (s := s.setMem _) (by rw [State.setMem_params]; omega)

theorem loadProgram_of_too_long {program : List Byte} {a : Nat} {s : State} (ha : a ≤ s.params.memSize.val)
    (h : s.params.memSize.val < a + program.length) : ∃ t, loadProgram program a s = .fail t := by
  induction program generalizing a s with
  | nil =>
    rw [List.length_nil] at h
    omega
  | cons b rest ih =>
    rw [List.length_cons] at h
    rcases Nat.lt_or_ge a s.params.memSize.val with hlt | hge
    · simp only [loadProgram, s.writeByte_of_lt a b hlt]
      exact ih (s := s.setMem _) hlt (by rw [State.setMem_params]; omega)
    · exact ⟨s, by simp only [loadProgram, s.writeByte_of_ge a b hge]⟩

theorem memLookup_storeBytes_below {program : List Byte} {a b : Nat} {m : Memory} (h : b < a) :
    memLookup (storeBytes program a m) b = memLookup m b := by
  induction program generalizing a m with
  | nil => rfl
  | cons v rest ih => exact (ih (Nat.lt_succ_of_lt h)).trans (memLookup_memStore_other _ _ _ _ (Nat.ne_of_lt h))

/-- From address `a` upward the program's bytes are read, and beyond its end what stood there before. -/
theorem memLookup_storeBytes_from {program : List Byte} {a i : Nat} {m : Memory} (hw : Memory.wf m = true) :
    memLookup (storeBytes program a m) (a + i) = program.getD i (memLookup m (a + i)) := by
  induction program generalizing a i m with
  | nil => rfl
  | cons v rest ih =>
    cases i with
    | zero => exact (memLookup_storeBytes_below (Nat.lt_succ_self a)).trans (memLookup_memStore_same _ _ _ hw)
    | succ i =>
      have hrest := ih (a := a + 1) (i := i) (memStore_wf m a v hw)
      rw [memLookup_memStore_other _ _ _ _ (by omega), Nat.add_right_comm a] at hrest
      exact hrest

/-- A program that fits a constructed machine loads, and each address reads the program's byte, or 0 beyond its end. -/
theorem loadProgram_construct {p : Params} {program : List Byte} (h : program.length ≤ p.memSize.val) :
    ∃ t, loadProgram program 0 (State.construct p) = .ok t ∧
      ∀ a, a < p.memSize.val → t.readByte a = some (program.getD a 0) := by
  refine ⟨_, loadProgram_of_fits (s := State.construct p) (by rwa [Nat.zero_add]), fun a ha => ?_⟩
  rw [State.readByte_of_lt _ a ha]
  have hlookup := memLookup_storeBytes_from (program := program) (a := 0) (i := a) (m := []) rfl
  rw [Nat.zero_add] at hlookup
  exact congrArg some hlookup

/-- Settles O47: the load stores byte after byte while there is room. -/
theorem loadPlacesProgramAtZero : Obligations.LoadPlacesProgramAtZero :=
  fun p _ => ⟨loadProgram_construct, fun hlong =>
    loadProgram_of_too_long (s := State.construct p) (Nat.zero_le _) (by rwa [Nat.zero_add])⟩

/-! The assembler's output (R104). -/

theorem assemble_of_assembleLines {lines : List (List Char)} {is : List Instr} (h : assembleLines lines = .ok is) :
    assemble lines = .ok (programBytes is) := by
  rw [assemble, h]

theorem programBytes_length (is : List Instr) : (programBytes is).length = 2 * is.length := by
  induction is with
  | nil => rfl
  | cons i rest ih =>
    rw [programBytes, List.length_append, ih, List.length_cons]
    exact (Nat.add_comm 2 _).trans (Nat.mul_succ 2 _).symm

/-- The k-th instruction's word stands in the bytes 2k and 2k + 1, low byte first. -/
theorem programBytes_getD {is : List Instr} {k : Nat} {i : Instr} (h : is[k]? = some i) :
    (programBytes is).getD (2 * k) 0 = lowByte (encode i) ∧
      (programBytes is).getD (2 * k + 1) 0 = highByte (encode i) := by
  induction is generalizing k with
  | nil => cases h
  | cons j rest ih =>
    cases k with
    | zero =>
      cases h
      exact ⟨rfl, rfl⟩
    | succ k => exact ih (by simpa using h)

/-- Settles O59: the load puts byte 2k and byte 2k + 1 of the output at those addresses, and they are the k-th word's halves. -/
theorem assembledProgramIsLaidOutInOrder : Obligations.AssembledProgramIsLaidOutInOrder := by
  intro p lines bytes is his hbytes hfits
  cases (assemble_of_assembleLines his).symm.trans hbytes
  obtain ⟨t, hload, hread⟩ := loadProgram_construct (program := programBytes is) (by rwa [programBytes_length])
  refine ⟨t, hload, fun k i hi => ?_⟩
  obtain ⟨hlow, hhigh⟩ := programBytes_getD hi
  have hk : k < is.length := (List.getElem?_eq_some_iff.mp hi).1
  have h0 := hread (2 * k) (by omega)
  have h1 := hread (2 * k + 1) (by omega)
  rw [State.readWord_of_bytes h0 h1, hlow, hhigh, joinBytes_low_high]

/-! Nop has no spelling (R98). -/

/-- Each mnemonic gives an instruction of its own, and none of the five is Nop. -/
theorem assembleArgs_ne_nop (name : List Char) (m : Mnemonic) (args : List (List Char)) :
    assembleArgs name m args ≠ .ok .nop := by
  intro h
  unfold assembleArgs at h
  split at h
  case h_1 => split at h <;> cases h
  case h_2 => split at h <;> cases h
  case h_3 => cases h
  case h_4 =>
    split at h
    · cases h
    · split at h <;> cases h
  case h_5 => split at h <;> cases h
  case h_6 => cases h

theorem assembleTokens_ne_nop (ts : List (List Char)) : assembleTokens ts ≠ .ok (some .nop) := by
  intro h
  unfold assembleTokens at h
  split at h
  · cases h
  · rename_i name args
    split at h
    · cases h
    · rename_i m _
      split at h
      · rename_i i hi
        cases h
        exact assembleArgs_ne_nop name m args hi
      · cases h

theorem assembleLine_ne_nop (line : List Char) : assembleLine line ≠ .ok (some .nop) := by
  unfold assembleLine
  split
  · exact fun h => nomatch h
  · exact assembleTokens_ne_nop _

/-- Settles O58: whatever a line's first token, the instruction is one of the five with a mnemonic. -/
theorem textFormCannotSpellNop : Obligations.TextFormCannotSpellNop :=
  ⟨fun line _ h hi => assembleLine_ne_nop line (hi ▸ h), rfl⟩

end Sys2Proof.Machine
end

section
/-! PROOFS. The driving loop (70_reset_and_hazards.md R202): how it can end. -/

namespace Sys2Proof.Machine

/-! The fault outcome of a step. -/

/-- No body answers with a latched record: a body's only fault is the handler that never returns. -/
theorem exec_ne_latched (i : Instr) (s : State) (r : FaultRecord) : exec i s ≠ .fault (.latched r) := by
  intro h
  cases hrun : runsHandler i s with
  | false =>
    obtain ⟨t, ht⟩ := exec_next_of_not_runsHandler hrun
    cases ht.symm.trans h
  | true =>
    cases i with
    | signal code =>
      obtain ⟨g, hg⟩ := Option.isSome_iff_exists.mp hrun
      cases he : (handlerBehaviour g s).ending with
      | returns => cases (exec_signal_of_returns hg he).symm.trans h
      | never => cases (exec_signal_of_never hg he).symm.trans h
      | startsStep => cases (exec_signal_of_startsStep hg he).symm.trans h
    | _ => cases hrun

/-- A step answers a latched record only when the machine was faulted with it before (R127). -/
theorem fault_of_step_latched {s : State} {r : FaultRecord} (h : step s = .fault (.latched r)) : s.fault = some r := by
  cases hf : s.fault with
  | some q =>
    cases (step_of_fault hf).symm.trans h
    rfl
  | none =>
    cases hr : s.running with
    | some g => cases (step_of_running hf hr).symm.trans h
    | none =>
      obtain hstep | ⟨e, hstep⟩ | ⟨i, _, hstep⟩ := step_cases ⟨hf, hr⟩
      · cases hstep.symm.trans h
      · cases hstep.symm.trans h
      · exact absurd (hstep.symm.trans h) (exec_ne_latched i _ r)

/-- A faulted machine ends the loop at once, with its record. -/
theorem drive_of_fault {s : State} {r : FaultRecord} (h : s.fault = some r) (n : Nat) :
    drive (n + 1) s = .faulted r s := by
  simp only [drive, step_of_fault h]

/-- What an end of at most `n` steps from `s` says of the state it is in. -/
def EndHolds (n : Nat) (s : State) : RunEnd → Prop
  | .halted t => t.halt = true ∧ t.fault = none ∧ ∃ u, step u = .next t
  | .faulted r t => t.fault = some r
  | .noEnd _ => True
  | .refused _ => True
  | .going t => (n = 0 ∧ t = s) ∨ (t.fault = none ∧ t.halt = false)

/-- An end reached after one more step, which left `t` with neither fault nor halt flag. -/
theorem EndHolds.after_step {n : Nat} {s t : State} {e : RunEnd} (hf : t.fault = none) (hh : t.halt = false)
    (h : EndHolds n t e) : EndHolds (n + 1) s e := by
  cases e with
  | going u =>
    rcases h with ⟨_, rfl⟩ | h
    · exact .inr ⟨hf, hh⟩
    · exact .inr h
  | halted u => exact h
  | faulted r u => exact h
  | noEnd code => trivial
  | refused r => trivial

theorem endHolds_drive (n : Nat) (s : State) : EndHolds n s (drive n s) := by
  induction n generalizing s with
  | zero => exact .inl ⟨rfl, rfl⟩
  | succ n ih =>
    unfold drive
    split
    · rename_i t hstep
      split
      · rename_i r hr
        exact hr
      · rename_i hf
        split
        · rename_i hh
          exact ⟨hh, hf, s, hstep⟩
        · rename_i hh
          exact (ih t).after_step hf (Bool.eq_false_iff.mpr hh)
    · rename_i r hstep
      exact fault_of_step_latched hstep
    · trivial
    · trivial

theorem endHolds_of_drive_eq {n : Nat} {s : State} {e : RunEnd} (h : drive n s = e) : EndHolds n s e :=
  h ▸ endHolds_drive n s

/-- Settles O60: by induction on the steps allowed, and a faulted machine's next step answers its record again. -/
theorem drivingLoopEndsByItsContract : Obligations.DrivingLoopEndsByItsContract := by
  refine fun n s => ⟨fun t h => endHolds_of_drive_eq h, fun t r h => ?faulted, fun t h => ?going⟩
  case faulted =>
    have hr : t.fault = some r := endHolds_of_drive_eq h
    exact ⟨hr, drive_of_fault hr⟩
  case going =>
    have hend : (n = 0 ∧ t = s) ∨ (t.fault = none ∧ t.halt = false) := endHolds_of_drive_eq h
    exact hend.imp_left And.left

end Sys2Proof.Machine
end
